-- ==== Sys2Proof/Word.lean ====
section
/-!
DEFINITION. The word types of the LWIS core: 32-bit registers, cells and addresses, 8-bit register indices,
64-bit instruction words (00_scope.md R6, R7; 30_encoding.md R80).
-/

namespace Sys2Proof

/-- A register value, memory cell, immediate or address: an unsigned 32-bit integer (10_state.md R21). -/
abbrev Word := BitVec 32

/-- A register index as an 8-bit operand field names it: every value 0 to 255 is a register (R21, R87). -/
abbrev RegIdx := BitVec 8

/-- The 8-bit family id and the 8-bit opcode of an instruction word (30_encoding.md R81). -/
abbrev Byte := BitVec 8

/-- An instruction word: `ILEN` = 64 bits (30_encoding.md R80). -/
abbrev InstrWord := BitVec 64

end Sys2Proof
end

