-- ==== Sys2Proof/Config.lean ====
section
/-!
DEFINITION. The parameters the spec leaves open (00_scope.md R7): they are arguments of a run, fixed while it lasts
(10_state.md R39, R41), so a `Config` is plain data that `State` carries and no statement picks a value for it.
-/

namespace Sys2Proof

/-- `ST_ROLES`: which family-4 field of ST is the data register and which the base (R7, D8). -/
inductive StRoles where
  | dataF0BaseF1
  | dataF1BaseF0
  deriving DecidableEq, Repr

/-- `STACK_DEPTH`: the capacity of the call stack, a positive integer or unbounded (10_state.md R29, D24). -/
inductive StackDepth where
  | finite (entries : Nat)
  | unbounded
  deriving DecidableEq, Repr

/-- The configuration channel of R39: fixed for a run. -/
structure Config where
  /-- `MEM_SIZE`, the number of memory cells. -/
  memSize : Nat
  /-- `STACK_DEPTH`. -/
  stackDepth : StackDepth
  /-- `ST_ROLES`. -/
  stRoles : StRoles
  deriving DecidableEq, Repr

/-- The largest memory the 32-bit effective address can name: `MEM_SIZE <= 2^32` (20_memory.md R60). -/
def maxMemSize : Nat := 4294967296

/-- The longest program: `N <= 2^32 - 1` (10_state.md R33). -/
def maxProgramLength : Nat := 4294967295

/-- The configuration `State.reset` takes. `MEM_SIZE` and `STACK_DEPTH` are OPEN in the spec (R7): 16 and 4 are the
convention of 95_test_vectors.md. DESIGN CHOICE (log 1), unsafe if a statement rested on the two numbers; none does.
`ST_ROLES` is the spec's default. -/
def Config.atReset : Config :=
  { memSize := 16, stackDepth := .finite 4, stRoles := .dataF0BaseF1 }

end Sys2Proof
end

