-- ==== Sys2Proof/Syntax.lean ====
section
/-!
DEFINITION. The syntax of the LWIS core: one constructor for each of the 35 rows of the Operation Matrix
(30_encoding.md R92), and the decoded tuple (family, opcode, f[0..5]) of the decoder (R84).
Every 8-bit operand field is a register index (R91); every 32-bit field is an immediate or offset (R90).
-/

namespace Sys2Proof

/-- An instruction. The operands stand in field order f[0], f[1], ...; a field the operation ignores (f[1] of the
family-5 arithmetic, 46_family5_multi.md R220) is kept, because the fault snapshot reports it (10_state.md R35). -/
inductive Instr where
  -- family 0, layout []
  | nop
  | ret
  -- family 1, layout [8]
  | print (a : RegIdx)
  | read (d : RegIdx)
  -- family 2, layout [8, 8, 8]
  | lt (d a b : RegIdx)
  | gt (d a b : RegIdx)
  | eq (d a b : RegIdx)
  | ge (d a b : RegIdx)
  | le (d a b : RegIdx)
  -- family 3, layout [8, 32]
  | li (d : RegIdx) (imm : Word)
  | jmp (b : RegIdx) (imm : Word)
  | call (b : RegIdx) (imm : Word)
  -- family 4, layout [8, 8, 32]
  | st (f0 f1 : RegIdx) (imm : Word)
  | ld (d b : RegIdx) (imm : Word)
  | addi (d a : RegIdx) (imm : Word)
  | subi (d a : RegIdx) (imm : Word)
  | muli (d a : RegIdx) (imm : Word)
  | divi (d a : RegIdx) (imm : Word)
  | shri (d a : RegIdx) (imm : Word)
  | shli (d a : RegIdx) (imm : Word)
  | andi (d a : RegIdx) (imm : Word)
  | ori (d a : RegIdx) (imm : Word)
  | xori (d a : RegIdx) (imm : Word)
  | lti (d a : RegIdx) (imm : Word)
  | gti (d a : RegIdx) (imm : Word)
  | eqi (d a : RegIdx) (imm : Word)
  | jgtz (c b : RegIdx) (imm : Word)
  -- family 5, layout [8, 8, 8, 8, 8, 8]
  | div (q r s1 s2 s3 s4 : RegIdx)
  | mul (d e s1 s2 s3 s4 : RegIdx)
  | add (d e s1 s2 s3 s4 : RegIdx)
  | sub (d e s1 s2 s3 s4 : RegIdx)
  | and (d e s1 s2 s3 s4 : RegIdx)
  | or (d e s1 s2 s3 s4 : RegIdx)
  | xor (d e s1 s2 s3 s4 : RegIdx)
  | shuf (src0 src1 src2 dst0 dst1 dst2 : RegIdx)
  deriving DecidableEq, Repr

/-- The six operand fields f[0..5] of a decoded word. An 8-bit field is widened with zeros; an unused field is the
sentinel 0 (30_encoding.md R84). -/
structure Fields where
  f0 : Word
  f1 : Word
  f2 : Word
  f3 : Word
  f4 : Word
  f5 : Word
  deriving DecidableEq, Repr

/-- All six fields 0: what was never decoded (60_exceptions.md R243). -/
def Fields.zero : Fields := ⟨0, 0, 0, 0, 0, 0⟩

/-- The fields as the list f[0], ..., f[5]. -/
def Fields.toList (f : Fields) : List Word := [f.f0, f.f1, f.f2, f.f3, f.f4, f.f5]

/-- What the decoder answers: family, opcode and the six fields (30_encoding.md R84). -/
structure Decoded where
  family : Byte
  opcode : Byte
  f : Fields
  deriving DecidableEq, Repr

/-- The decoded tuple of a step that fetched no word (60_exceptions.md R243, D29). -/
def Decoded.zero : Decoded := ⟨0, 0, Fields.zero⟩

end Sys2Proof
end

