-- ==== Sys2Proof/Machine/State.lean ====
section
/-!
DEFINITION. The state of the LWIS core (10_state.md R20 to R41) as plain data, its reset, and the reasons a step can stop.
-/

namespace Sys2Proof.Machine

/-- The host interface's fault reasons. EMPTY: every fault of the LWIS core has an entry the spec describes
(60_exceptions.md R243), so it is TAKEN, as a next state in run state Faulted; nothing raises a reason here. Safe. -/
inductive Fault where
  deriving DecidableEq, Repr

/-- The host interface's refusal reasons. -/
inductive Refusal where
  /-- Raised by an arm of `exec` for an instruction with no meaning yet. Safe: the model stops. No arm raises it: all 35
  instructions have their meaning. -/
  | notModelled (mnemonic : String)
  deriving DecidableEq, Repr

/-- `RUNSTATE` (R34, 40_engine.md R121). -/
inductive RunState where
  | running
  | halted
  | faulted
  deriving DecidableEq, Repr

/-- The eight fault kinds (60_exceptions.md R240). -/
inductive FaultKind where
  /-- GUARD: an index in DEST is 0 or 1 (40_engine.md R127). -/
  | illegalRegisterWrite
  /-- DECODE or DISPATCH: no entry in the Operation Matrix (30_encoding.md R93). -/
  | unknownFamilyOrOpcode
  /-- EXECUTE of ST, LD: effective address at or above MEM_SIZE (20_memory.md R64). -/
  | outOfRangeMemoryAccess
  /-- EXECUTE of RET: empty call stack (10_state.md R31). -/
  | stackUnderflow
  /-- EXECUTE of DIVI, DIV: a divisor equal to 0. -/
  | arithmeticFault
  /-- EXECUTE of READ: the input item is Malformed (42_family1_io.md R162). -/
  | malformedInput
  /-- EXECUTE of CALL: STACK_DEPTH entries already on the stack (10_state.md R31). -/
  | stackOverflow
  /-- FETCH: x[1] beyond the program (40_engine.md R122). -/
  | fetchOutOfRange
  deriving DecidableEq, Repr

/-- `FAULT`, the diagnostic snapshot (R35): kind, pc, family, opcode and the six decoded fields. -/
structure Snapshot where
  kind : FaultKind
  pc : Word
  family : Byte
  opcode : Byte
  f : Fields
  deriving DecidableEq, Repr

/-- One item of the input channel (42_family1_io.md R162): an integer of any sign and size, or input that is none. -/
inductive InputItem where
  | int (v : Int)
  | malformed
  deriving DecidableEq, Repr

/-- One listed memory cell: a cell address and its 32-bit value. The core has no bytes (20_memory.md R66), so the unit
of the list is the cell (log 5). -/
abbrev Cell := Nat × Word

/-- The memory array (20_memory.md R60): the cells that do not hold 0, addresses strictly rising (`Memory.wf`). -/
abbrev Memory := List Cell

/-- The canonical form: addresses strictly rising, and no listed cell equal to what an unlisted one reads as (0). -/
abbrev Memory.wf (m : Memory) : Prop :=
  m.Pairwise (fun c d => c.1 < d.1) ∧ ∀ c ∈ m, c.2 ≠ 0

/-- Everything the spec gives the machine, and the run inputs the step reads. -/
structure State where
  /-- MEM_SIZE, STACK_DEPTH, ST_ROLES: fixed for the run (R39, R41). -/
  cfg : Config
  /-- `PROG[0..N-1]`, immutable for the run (R33). -/
  prog : List InstrWord
  /-- x[2] .. x[255] (R24); x[i] is entry i - 2. x[0] is hard-wired 0 (R22) and is not stored. -/
  gpr : Vector Word 254
  /-- x[1], the program counter (R23). -/
  pc : Word
  /-- `MEM` (R28). -/
  mem : Memory
  /-- `STACK` (R30), the top first. -/
  stack : List Word
  /-- `RUNSTATE` (R34). -/
  runState : RunState
  /-- `FAULT` (R35): defined only when RUNSTATE = Faulted; `none` is "no fault". -/
  fault : Option Snapshot
  /-- `ICOUNT` (R36). -/
  icount : Nat
  /-- The input items the host has supplied and no READ has consumed, the next first (R39, 42_family1_io.md R163). -/
  input : List InputItem
  /-- The output events since reset, in program order (R39, 42_family1_io.md R161). -/
  output : List Word
  deriving DecidableEq, Repr

/-- `N`, the program length (R33). -/
abbrev State.progLength (s : State) : Nat := s.prog.length

/-- Reset, the creation of a run (70_reset_and_hazards.md R270 to R272, 10_state.md R40): the host gives the
configuration, the program image and the input channel. -/
def State.create (cfg : Config) (prog : List InstrWord) (input : List InputItem) : State :=
  { cfg := cfg
    prog := prog
    gpr := Vector.replicate 254 0
    pc := 0
    mem := []
    stack := []
    runState := if prog.length = 0 then .halted else .running
    fault := none
    icount := 0
    input := input
    output := [] }

/-- The machine right after reset with nothing supplied: N = 0, so the run is Halted at once (R272). A program comes
from outside, by `State.create` (log 2). -/
def State.reset : State := State.create Config.atReset [] []

end Sys2Proof.Machine
end

