-- ==== Sys2Proof/Machine/Arith.lean ====
section
/-!
DEFINITION. The 32-bit unsigned arithmetic of families 4 and 5: every result is reduced modulo 2^32 (00_scope.md R9, D3).
-/

namespace Sys2Proof.Machine

/-- `wrap32(v)` = v mod 2^32 for any integer v (R9). -/
def wrap32 (v : Int) : Word := BitVec.ofInt 32 v

/-- `wrap32(x + y)` (R193, R224). -/
def addWord (x y : Word) : Word := wrap32 ((x.toNat : Int) + (y.toNat : Int))

/-- `wrap32(x - y)` (R194, R225). -/
def subWord (x y : Word) : Word := wrap32 ((x.toNat : Int) - (y.toNat : Int))

/-- `wrap32(x * y)` (R195, R223). -/
def mulWord (x y : Word) : Word := wrap32 ((x.toNat : Int) * (y.toNat : Int))

/-- `x div y`, unsigned; used only for y other than 0 (R196, R222). -/
def divWord (x y : Word) : Word := BitVec.ofNat 32 (x.toNat / y.toNat)

/-- `x mod y`, unsigned; used only for y other than 0 (R222). -/
def modWord (x y : Word) : Word := BitVec.ofNat 32 (x.toNat % y.toNat)

/-- `x div 2^n`, the logical shift right: the amount is the whole 32-bit value, and 32 or more gives 0 (R197). The test
keeps 2^n small when the definition is evaluated; `shrWord_eq` in Laws says it is R197's formula for every amount. -/
def shrWord (x n : Word) : Word :=
  if n.toNat < 32 then BitVec.ofNat 32 (x.toNat / 2 ^ n.toNat) else 0

/-- `wrap32(x * 2^n)`, the shift left: an amount of 32 or more gives 0 (R198); `shlWord_eq` in Laws as for `shrWord`. -/
def shlWord (x n : Word) : Word :=
  if n.toNat < 32 then BitVec.ofNat 32 (x.toNat * 2 ^ n.toNat) else 0

/-- Bitwise AND (R199, R226). -/
def andWord (x y : Word) : Word := x &&& y

/-- Bitwise OR (R200, R227). -/
def orWord (x y : Word) : Word := x ||| y

/-- Bitwise XOR (R201, R228). -/
def xorWord (x y : Word) : Word := x ^^^ y

/-- The left fold of a two-operand operation over the values of a source chain (R221). A chain is never empty. -/
def chainFold (op : Word → Word → Word) (values : List Word) : Word :=
  match values with
  | [] => 0
  | v :: vs => vs.foldl op v

/-- The loop of DIV over the divisors of its chain (R222): the quotient is divided again by each divisor and the
remainder is that of the last division; a divisor 0 gives nothing. -/
def divLoop (q r : Word) (divisors : List Word) : Option (Word × Word) :=
  match divisors with
  | [] => some (q, r)
  | d :: ds => if d = 0 then none else divLoop (divWord q d) (modWord q d) ds

/-- DIV over the values of its chain: the quotient and the remainder to write, or nothing for a zero divisor (R222). -/
def divChain (values : List Word) : Option (Word × Word) :=
  match values with
  | [] => none
  | v :: ds => divLoop v 0 ds

end Sys2Proof.Machine
end

