-- ==== Sys2Proof/Machine/Flags.lean ====
section
/-!
DEFINITION. The LWIS core has no flags or condition codes (10_state.md R27): a condition is a register value. This file
holds the conditions: `bool(c)`, the unsigned comparisons (43_family2_compare.md R170) and the test of JGTZ
(45_family4_reg_imm.md R205).
-/

namespace Sys2Proof.Machine

/-- `bool(c)`: 1 if c holds, else 0 (00_scope.md R9). -/
def boolWord (c : Bool) : Word := if c then 1 else 0

/-- Unsigned less-than (R171). -/
def ltWord (x y : Word) : Word := boolWord (decide (x.toNat < y.toNat))

/-- Unsigned greater-than (R172). -/
def gtWord (x y : Word) : Word := boolWord (decide (x.toNat > y.toNat))

/-- Equality (R173). -/
def eqWord (x y : Word) : Word := boolWord (decide (x = y))

/-- Unsigned greater-or-equal (R174). -/
def geWord (x y : Word) : Word := boolWord (decide (x.toNat ≥ y.toNat))

/-- Unsigned less-or-equal (R175). -/
def leWord (x y : Word) : Word := boolWord (decide (x.toNat ≤ y.toNat))

/-- `sext_32(v) > 0`: the one signed reading of a register (R205, 90_conflicts.md C2). -/
def gtZero (v : Word) : Bool := decide (0 < v.toInt)

end Sys2Proof.Machine
end

