-- ==== Sys2Proof/Decode.lean ====
section
/-!
DEFINITION. The Layout Table, the decoder, the Operation Matrix and the encoder (30_encoding.md R80 to R95).
The decoder is total: every 64-bit word decodes to an instruction or is rejected by name.
-/

namespace Sys2Proof

/-! ### The Layout Table -/

/-- The Layout Table (R82): the operand-field widths of a family, in order from bit 16 upward. An unknown family has no
row; it is never defaulted. -/
def layoutTable (family : Nat) : Option (List Nat) :=
  match family with
  | 0 => some []
  | 1 => some [8]
  | 2 => some [8, 8, 8]
  | 3 => some [8, 32]
  | 4 => some [8, 8, 32]
  | 5 => some [8, 8, 8, 8, 8, 8]
  | _ => none

/-! ### The decoder -/

/-- `family = w[7:0]` (R81). -/
def familyOf (w : InstrWord) : Byte := BitVec.ofNat 8 (w.toNat % 2 ^ 8)

/-- `opcode = w[15:8]` (R81). -/
def opcodeOf (w : InstrWord) : Byte := BitVec.ofNat 8 (w.toNat / 2 ^ 8 % 2 ^ 8)

/-- The loop of R84: mask off the low n bits of what remains, then shift the remainder right by n. -/
def splitFields (widths : List Nat) (rest : Nat) : List Word :=
  match widths with
  | [] => []
  | n :: ns => BitVec.ofNat 32 (rest % 2 ^ n) :: splitFields ns (rest / 2 ^ n)

/-- The six fields of R84 from the extracted ones: fields beyond the family's declared count are 0. -/
def fieldsOfList (l : List Word) : Fields :=
  ⟨l.getD 0 0, l.getD 1 0, l.getD 2 0, l.getD 3 0, l.getD 4 0, l.getD 5 0⟩

/-- `decode(w)` of R84: (family, opcode, f[0..5]), or nothing for a family above 5 (R85). -/
def decodeFields (w : InstrWord) : Option Decoded :=
  (layoutTable (familyOf w).toNat).map fun widths =>
    ⟨familyOf w, opcodeOf w, fieldsOfList (splitFields widths (w.toNat / 2 ^ 16))⟩

/-! ### The Operation Matrix -/

/-- An 8-bit operand field as a register index. -/
def reg (f : Word) : RegIdx := f.setWidth 8

/-- Family 0 of the Operation Matrix (R92). -/
def matrixFamily0 (opcode : Nat) : Option Instr :=
  match opcode with
  | 0 => some .nop
  | 1 => some .ret
  | _ => none

/-- Family 1 of the Operation Matrix (R92). -/
def matrixFamily1 (opcode : Nat) (f : Fields) : Option Instr :=
  match opcode with
  | 0 => some (.print (reg f.f0))
  | 1 => some (.read (reg f.f0))
  | _ => none

/-- Family 2 of the Operation Matrix (R92). -/
def matrixFamily2 (opcode : Nat) (f : Fields) : Option Instr :=
  match opcode with
  | 0 => some (.lt (reg f.f0) (reg f.f1) (reg f.f2))
  | 1 => some (.gt (reg f.f0) (reg f.f1) (reg f.f2))
  | 2 => some (.eq (reg f.f0) (reg f.f1) (reg f.f2))
  | 3 => some (.ge (reg f.f0) (reg f.f1) (reg f.f2))
  | 4 => some (.le (reg f.f0) (reg f.f1) (reg f.f2))
  | _ => none

/-- Family 3 of the Operation Matrix (R92). -/
def matrixFamily3 (opcode : Nat) (f : Fields) : Option Instr :=
  match opcode with
  | 0 => some (.li (reg f.f0) f.f1)
  | 1 => some (.jmp (reg f.f0) f.f1)
  | 2 => some (.call (reg f.f0) f.f1)
  | _ => none

/-- Family 4 of the Operation Matrix (R92). -/
def matrixFamily4 (opcode : Nat) (f : Fields) : Option Instr :=
  match opcode with
  | 0 => some (.st (reg f.f0) (reg f.f1) f.f2)
  | 1 => some (.ld (reg f.f0) (reg f.f1) f.f2)
  | 2 => some (.addi (reg f.f0) (reg f.f1) f.f2)
  | 3 => some (.subi (reg f.f0) (reg f.f1) f.f2)
  | 4 => some (.muli (reg f.f0) (reg f.f1) f.f2)
  | 5 => some (.divi (reg f.f0) (reg f.f1) f.f2)
  | 6 => some (.shri (reg f.f0) (reg f.f1) f.f2)
  | 7 => some (.shli (reg f.f0) (reg f.f1) f.f2)
  | 8 => some (.andi (reg f.f0) (reg f.f1) f.f2)
  | 9 => some (.ori (reg f.f0) (reg f.f1) f.f2)
  | 10 => some (.xori (reg f.f0) (reg f.f1) f.f2)
  | 11 => some (.lti (reg f.f0) (reg f.f1) f.f2)
  | 12 => some (.gti (reg f.f0) (reg f.f1) f.f2)
  | 13 => some (.eqi (reg f.f0) (reg f.f1) f.f2)
  | 14 => some (.jgtz (reg f.f0) (reg f.f1) f.f2)
  | _ => none

/-- Family 5 of the Operation Matrix (R92). -/
def matrixFamily5 (opcode : Nat) (f : Fields) : Option Instr :=
  match opcode with
  | 0 => some (.div (reg f.f0) (reg f.f1) (reg f.f2) (reg f.f3) (reg f.f4) (reg f.f5))
  | 1 => some (.mul (reg f.f0) (reg f.f1) (reg f.f2) (reg f.f3) (reg f.f4) (reg f.f5))
  | 2 => some (.add (reg f.f0) (reg f.f1) (reg f.f2) (reg f.f3) (reg f.f4) (reg f.f5))
  | 3 => some (.sub (reg f.f0) (reg f.f1) (reg f.f2) (reg f.f3) (reg f.f4) (reg f.f5))
  | 4 => some (.and (reg f.f0) (reg f.f1) (reg f.f2) (reg f.f3) (reg f.f4) (reg f.f5))
  | 5 => some (.or (reg f.f0) (reg f.f1) (reg f.f2) (reg f.f3) (reg f.f4) (reg f.f5))
  | 6 => some (.xor (reg f.f0) (reg f.f1) (reg f.f2) (reg f.f3) (reg f.f4) (reg f.f5))
  | 7 => some (.shuf (reg f.f0) (reg f.f1) (reg f.f2) (reg f.f3) (reg f.f4) (reg f.f5))
  | _ => none

/-- The Operation Matrix (40_engine.md R124): first index the family, second the opcode; `none` for a pair that is not
one of the 35 rows of R92. -/
def operationMatrix (d : Decoded) : Option Instr :=
  match d.family.toNat with
  | 0 => matrixFamily0 d.opcode.toNat
  | 1 => matrixFamily1 d.opcode.toNat d.f
  | 2 => matrixFamily2 d.opcode.toNat d.f
  | 3 => matrixFamily3 d.opcode.toNat d.f
  | 4 => matrixFamily4 d.opcode.toNat d.f
  | 5 => matrixFamily5 d.opcode.toNat d.f
  | _ => none

/-- What decoding and dispatching a word answers: an instruction, or a rejection by name. -/
inductive DecodeResult where
  /-- A row of R92. -/
  | instr (i : Instr)
  /-- The family has no Layout Table row (R85): rejected at DECODE, no operand field extracted. -/
  | unknownFamily (family opcode : Byte)
  /-- The family is known and the opcode is not listed for it (R93): rejected at DISPATCH. -/
  | unknownOpcode (d : Decoded)
  deriving DecidableEq, Repr

/-- DECODE and DISPATCH of one word (40_engine.md R123, R124). -/
def decode (w : InstrWord) : DecodeResult :=
  match decodeFields w with
  | none => .unknownFamily (familyOf w) (opcodeOf w)
  | some d =>
    match operationMatrix d with
    | some i => .instr i
    | none => .unknownOpcode d

/-- The host's window on the decoder: the instruction word whose bits are `w`, its bits above `nbits` 0.
A number of 2^64 or more is no instruction word (93_implementation_defined.md U11). -/
def decodeTableWord (nbits w : Nat) : Option Instr :=
  if w % 2 ^ nbits < 2 ^ 64 then
    match decode (BitVec.ofNat 64 (w % 2 ^ nbits)) with
    | .instr i => some i
    | .unknownFamily _ _ => none
    | .unknownOpcode _ => none
  else none

/-! ### The encoder -/

/-- A register index as the value of an 8-bit operand field. -/
def field (r : RegIdx) : Word := r.setWidth 32

/-- The (family, opcode, f[0..5]) of an instruction: its row of R92 and its operands in field order. This is also what
the fault snapshot reports of it (60_exceptions.md R243). -/
def Instr.toDecoded (i : Instr) : Decoded :=
  match i with
  | .nop => ⟨0, 0, ⟨0, 0, 0, 0, 0, 0⟩⟩
  | .ret => ⟨0, 1, ⟨0, 0, 0, 0, 0, 0⟩⟩
  | .print a => ⟨1, 0, ⟨field a, 0, 0, 0, 0, 0⟩⟩
  | .read d => ⟨1, 1, ⟨field d, 0, 0, 0, 0, 0⟩⟩
  | .lt d a b => ⟨2, 0, ⟨field d, field a, field b, 0, 0, 0⟩⟩
  | .gt d a b => ⟨2, 1, ⟨field d, field a, field b, 0, 0, 0⟩⟩
  | .eq d a b => ⟨2, 2, ⟨field d, field a, field b, 0, 0, 0⟩⟩
  | .ge d a b => ⟨2, 3, ⟨field d, field a, field b, 0, 0, 0⟩⟩
  | .le d a b => ⟨2, 4, ⟨field d, field a, field b, 0, 0, 0⟩⟩
  | .li d imm => ⟨3, 0, ⟨field d, imm, 0, 0, 0, 0⟩⟩
  | .jmp b imm => ⟨3, 1, ⟨field b, imm, 0, 0, 0, 0⟩⟩
  | .call b imm => ⟨3, 2, ⟨field b, imm, 0, 0, 0, 0⟩⟩
  | .st f0 f1 imm => ⟨4, 0, ⟨field f0, field f1, imm, 0, 0, 0⟩⟩
  | .ld d b imm => ⟨4, 1, ⟨field d, field b, imm, 0, 0, 0⟩⟩
  | .addi d a imm => ⟨4, 2, ⟨field d, field a, imm, 0, 0, 0⟩⟩
  | .subi d a imm => ⟨4, 3, ⟨field d, field a, imm, 0, 0, 0⟩⟩
  | .muli d a imm => ⟨4, 4, ⟨field d, field a, imm, 0, 0, 0⟩⟩
  | .divi d a imm => ⟨4, 5, ⟨field d, field a, imm, 0, 0, 0⟩⟩
  | .shri d a imm => ⟨4, 6, ⟨field d, field a, imm, 0, 0, 0⟩⟩
  | .shli d a imm => ⟨4, 7, ⟨field d, field a, imm, 0, 0, 0⟩⟩
  | .andi d a imm => ⟨4, 8, ⟨field d, field a, imm, 0, 0, 0⟩⟩
  | .ori d a imm => ⟨4, 9, ⟨field d, field a, imm, 0, 0, 0⟩⟩
  | .xori d a imm => ⟨4, 10, ⟨field d, field a, imm, 0, 0, 0⟩⟩
  | .lti d a imm => ⟨4, 11, ⟨field d, field a, imm, 0, 0, 0⟩⟩
  | .gti d a imm => ⟨4, 12, ⟨field d, field a, imm, 0, 0, 0⟩⟩
  | .eqi d a imm => ⟨4, 13, ⟨field d, field a, imm, 0, 0, 0⟩⟩
  | .jgtz c b imm => ⟨4, 14, ⟨field c, field b, imm, 0, 0, 0⟩⟩
  | .div q r s1 s2 s3 s4 => ⟨5, 0, ⟨field q, field r, field s1, field s2, field s3, field s4⟩⟩
  | .mul d e s1 s2 s3 s4 => ⟨5, 1, ⟨field d, field e, field s1, field s2, field s3, field s4⟩⟩
  | .add d e s1 s2 s3 s4 => ⟨5, 2, ⟨field d, field e, field s1, field s2, field s3, field s4⟩⟩
  | .sub d e s1 s2 s3 s4 => ⟨5, 3, ⟨field d, field e, field s1, field s2, field s3, field s4⟩⟩
  | .and d e s1 s2 s3 s4 => ⟨5, 4, ⟨field d, field e, field s1, field s2, field s3, field s4⟩⟩
  | .or d e s1 s2 s3 s4 => ⟨5, 5, ⟨field d, field e, field s1, field s2, field s3, field s4⟩⟩
  | .xor d e s1 s2 s3 s4 => ⟨5, 6, ⟨field d, field e, field s1, field s2, field s3, field s4⟩⟩
  | .shuf src0 src1 src2 dst0 dst1 dst2 => ⟨5, 7, ⟨field src0, field src1, field src2, field dst0, field dst1, field dst2⟩⟩

/-- The sum of R88 over the declared fields: f[k] at the bit where the widths before it end. -/
def packFields (pos : Nat) (widths : List Nat) (fields : List Word) : Nat :=
  match widths, fields with
  | n :: ns, f :: fs => f.toNat * 2 ^ pos + packFields (pos + n) ns fs
  | _, _ => 0

/-- `encode(fam, opc, f)` of R88. For a family with no layout only the two fixed fields are placed. -/
def encodeFields (d : Decoded) : InstrWord :=
  BitVec.ofNat 64
    (d.family.toNat + d.opcode.toNat * 2 ^ 8 +
      packFields 16 ((layoutTable d.family.toNat).getD []) d.f.toList)

/-- The one instruction word of an instruction (R88, R89), its ignored bits 0. -/
def encode (i : Instr) : InstrWord := encodeFields i.toDecoded

end Sys2Proof
end

