-- ==== Sys2Proof/Machine/Operands.lean ====
section
/-!
DEFINITION. The operand forms: reading and writing a register, the destination set of every instruction
(40_engine.md R125), the family-5 source chain (46_family5_multi.md R221) and the roles of ST (45_family4_reg_imm.md R191).
-/

namespace Sys2Proof.Machine

/-- `x[r]`: x[0] is hard-wired 0, x[1] is the program counter, which during an instruction is that instruction's own
index (10_state.md R22, R23, R25). -/
def State.readReg (s : State) (r : RegIdx) : Word :=
  if r = 0 then 0
  else if r = 1 then s.pc
  else s.gpr[r.toNat - 2]'(by have := r.isLt; omega)

/-- A generic register write at COMMIT. Writes to x[0] and x[1] never reach it (40_engine.md R127, R130): were one to,
it is discarded. -/
def State.writeReg (s : State) (r : RegIdx) (v : Word) : State :=
  if r = 0 ∨ r = 1 then s
  else { s with gpr := s.gpr.set (r.toNat - 2) v (by have := r.isLt; omega) }

/-- The registers no generic write may name (R127). -/
def isGuarded (r : RegIdx) : Bool := r == 0 || r == 1

/-- The three (source, destination) slots of SHUF, in order (46_family5_multi.md R229). -/
def shufSlots (src0 src1 src2 dst0 dst1 dst2 : RegIdx) : List (RegIdx × RegIdx) :=
  [(src0, dst0), (src1, dst1), (src2, dst2)]

/-- The slots of SHUF that act: those whose source field is not 0 (R229). -/
def activeSlots (slots : List (RegIdx × RegIdx)) : List (RegIdx × RegIdx) :=
  slots.filter fun p => p.1 != 0

/-- `DEST(op, f)` (R125): the registers an instruction writes through a generic register write. -/
def destinations (i : Instr) : List RegIdx :=
  match i with
  | .nop => []
  | .ret => []
  | .print _ => []
  | .read d => [d]
  | .lt d _ _ => [d]
  | .gt d _ _ => [d]
  | .eq d _ _ => [d]
  | .ge d _ _ => [d]
  | .le d _ _ => [d]
  | .li d _ => [d]
  | .jmp _ _ => []
  | .call _ _ => []
  | .st _ _ _ => []
  | .ld d _ _ => [d]
  | .addi d _ _ => [d]
  | .subi d _ _ => [d]
  | .muli d _ _ => [d]
  | .divi d _ _ => [d]
  | .shri d _ _ => [d]
  | .shli d _ _ => [d]
  | .andi d _ _ => [d]
  | .ori d _ _ => [d]
  | .xori d _ _ => [d]
  | .lti d _ _ => [d]
  | .gti d _ _ => [d]
  | .eqi d _ _ => [d]
  | .jgtz _ _ _ => []
  | .div q r _ _ _ _ => [q, r]
  | .mul d _ _ _ _ _ => [d]
  | .add d _ _ _ _ _ => [d]
  | .sub d _ _ _ _ _ => [d]
  | .and d _ _ _ _ _ => [d]
  | .or d _ _ _ _ _ => [d]
  | .xor d _ _ _ _ _ => [d]
  | .shuf src0 src1 src2 dst0 dst1 dst2 => (activeSlots (shufSlots src0 src1 src2 dst0 dst1 dst2)).map Prod.snd

/-- `chain(f)` of R221: f[2] and f[3] are always sources; f[4] and f[5] are taken in order up to the first 0. -/
def chain (s1 s2 s3 s4 : RegIdx) : List RegIdx :=
  s1 :: s2 :: [s3, s4].takeWhile (· != 0)

/-- The values of a source chain, x[S_1], ..., x[S_m], as the step began (40_engine.md R139). -/
def State.chainValues (s : State) (s1 s2 s3 s4 : RegIdx) : List Word :=
  (chain s1 s2 s3 s4).map s.readReg

/-- The data register of ST under the run's `ST_ROLES` (R191). -/
def stData (roles : StRoles) (f0 f1 : RegIdx) : RegIdx :=
  match roles with
  | .dataF0BaseF1 => f0
  | .dataF1BaseF0 => f1

/-- The base register of ST under the run's `ST_ROLES` (R61, R191). -/
def stBase (roles : StRoles) (f0 f1 : RegIdx) : RegIdx :=
  match roles with
  | .dataF0BaseF1 => f1
  | .dataF1BaseF0 => f0

end Sys2Proof.Machine
end

