-- ==== Sys2Proof/Machine/Ops.lean ====
section
/-!
DEFINITION. The named operations of the engine (40_engine.md): memory, the call stack, the staged effects and their
COMMIT, taking a fault, the write guard, ADVANCE and the halt test, FETCH and DECODE. There is no return from a fault
(60_exceptions.md R245), so none stands beside `State.takeFault`.
-/

namespace Sys2Proof.Machine

/-! ### Memory (20_memory.md) -/

/-- What an unlisted cell reads as: memory is zero-initialized (R60). -/
def unlistedCell : Word := 0

/-- The cell at address `a`. -/
def Memory.read (m : Memory) (a : Nat) : Word :=
  match m with
  | [] => unlistedCell
  | c :: cs => if c.1 = a then c.2 else Memory.read cs a

/-- The memory without the cell `a` listed. -/
def Memory.unlist (m : Memory) (a : Nat) : Memory := m.filter fun c => c.1 != a

/-- List the cell `a` with value `v` in its place by address. -/
def Memory.list (m : Memory) (a : Nat) (v : Word) : Memory :=
  match m with
  | [] => [(a, v)]
  | c :: cs => if a < c.1 then (a, v) :: c :: cs else c :: Memory.list cs a v

/-- Write `v` to the cell at address `a`, keeping the canonical form: a cell that holds what an unlisted one reads as is
not listed. -/
def Memory.write (m : Memory) (a : Nat) (v : Word) : Memory :=
  if v = unlistedCell then m.unlist a else (m.unlist a).list a v

/-- `EA(f)` of R61: base register value plus the immediate, modulo 2^32. -/
def State.effectiveAddress (s : State) (base : RegIdx) (imm : Word) : Word :=
  addWord (s.readReg base) imm

/-- The bounds check of R64: `a < MEM_SIZE`. -/
def State.inRange (s : State) (a : Word) : Bool := decide (a.toNat < s.cfg.memSize)

/-! ### Staged effects (40_engine.md R128 to R130) -/

/-- One operation on the call stack. -/
inductive StackOp where
  | push (v : Word)
  | pop
  deriving DecidableEq, Repr

/-- The effects one step stages (R128). -/
structure Effects where
  /-- Register writes, in the order COMMIT applies them. -/
  regs : List (RegIdx × Word) := []
  /-- At most one memory write: address and value. -/
  mem : Option (Word × Word) := none
  /-- At most one stack operation. -/
  stack : Option StackOp := none
  /-- The control transfer `pc <- t`; the step's flag `pc_written` is "there is one" (R129). -/
  target : Option Word := none
  /-- At most one output event. -/
  out : Option Word := none
  /-- The next input item is consumed. -/
  consumes : Bool := false
  deriving DecidableEq, Repr

/-- What EXECUTE answers. -/
inductive Execution where
  /-- The staged effects, to be committed. -/
  | stage (e : Effects)
  /-- A fault of the EXECUTE stage: every staged effect is discarded; `consumed` says that the input item is consumed
  all the same, which only a Malformed one is (42_family1_io.md R162). -/
  | raise (k : FaultKind) (consumed : Bool)
  /-- No input item yet: the step is not enabled (R136). -/
  | wait
  deriving DecidableEq, Repr

/-- The register writes, in their listed order: the later of two to one register stays (R130). -/
def State.commitRegs (s : State) (writes : List (RegIdx × Word)) : State :=
  writes.foldl (fun t w => t.writeReg w.1 w.2) s

/-- The staged memory write. -/
def State.commitMem (s : State) (w : Option (Word × Word)) : State :=
  match w with
  | none => s
  | some (a, v) => { s with mem := s.mem.write a.toNat v }

/-- The staged stack operation. -/
def State.commitStack (s : State) (op : Option StackOp) : State :=
  match op with
  | none => s
  | some (.push v) => { s with stack := v :: s.stack }
  | some .pop => { s with stack := s.stack.tail }

/-- Delivering the output event, after every earlier one. -/
def State.commitOutput (s : State) (out : Option Word) : State :=
  match out with
  | none => s
  | some v => { s with output := s.output ++ [v] }

/-- Consuming the input item. -/
def State.consumeInput (s : State) (consumes : Bool) : State :=
  if consumes then { s with input := s.input.tail } else s

/-- COMMIT (R130, R133): the staged effects in their order, and ICOUNT counts the instruction. -/
def State.commit (s : State) (e : Effects) : State :=
  let t := ((((s.commitRegs e.regs).commitMem e.mem).commitStack e.stack).commitOutput e.out).consumeInput e.consumes
  { t with icount := t.icount + 1 }

/-- ADVANCE (R131) and the halt test (R132): x[1] takes the staged target, or else the next index; the run halts when
it equals N. -/
def State.advance (s : State) (target : Option Word) : State :=
  let p := target.getD (addWord s.pc 1)
  { s with pc := p, runState := if p.toNat = s.progLength then .halted else s.runState }

/-! ### Taking a fault (40_engine.md R134, 60_exceptions.md R243) -/

/-- Fault entry: FAULT records the snapshot (kind, the unchanged pc, and the decode as far as it got) and RUNSTATE
becomes Faulted; nothing else changes. -/
def State.takeFault (s : State) (k : FaultKind) (d : Decoded) : State :=
  { s with
    runState := .faulted
    fault := some { kind := k, pc := s.pc, family := d.family, opcode := d.opcode, f := d.f } }

/-- The numeric code of a fault kind (60_exceptions.md R240). -/
def faultCode (k : FaultKind) : Nat :=
  match k with
  | .illegalRegisterWrite => 1
  | .unknownFamilyOrOpcode => 2
  | .outOfRangeMemoryAccess => 3
  | .stackUnderflow => 4
  | .arithmeticFault => 5
  | .malformedInput => 6
  | .stackOverflow => 7
  | .fetchOutOfRange => 8

/-! ### One instruction: GUARD, EXECUTE, COMMIT, ADVANCE -/

/-- The part of a step that follows DISPATCH (R121), shared by every meaning: the write guard (R127) before anything
else, then the operation's execution `ex` over the state as the step began, then COMMIT and ADVANCE, or the fault
entry, or no step at all while waiting for input. -/
def runInstr (i : Instr) (ex : State → Execution) (s : State) : Host.Outcome State Fault Refusal :=
  if (destinations i).any isGuarded then .next (s.takeFault .illegalRegisterWrite i.toDecoded)
  else
    match ex s with
    | .stage e => .next ((s.commit e).advance e.target)
    | .raise k consumed => .next ((s.consumeInput consumed).takeFault k i.toDecoded)
    | .wait => .next s

/-! ### Executions shared by several instructions -/

/-- Stage one register write and nothing else. -/
def stageReg (d : RegIdx) (v : Word) : Execution := .stage { regs := [(d, v)] }

/-- Stage one control transfer and nothing else (R129). -/
def stageJump (t : Word) : Execution := .stage { target := some t }

/-- A register-register operation: `x[D] <- op(x[A], x[B])` (43_family2_compare.md). -/
def regReg (op : Word → Word → Word) (d a b : RegIdx) (s : State) : Execution :=
  stageReg d (op (s.readReg a) (s.readReg b))

/-- A register-immediate operation: `x[D] <- op(x[S], imm)` (45_family4_reg_imm.md). -/
def regImm (op : Word → Word → Word) (d a : RegIdx) (imm : Word) (s : State) : Execution :=
  stageReg d (op (s.readReg a) imm)

/-- A chained operation: `x[D] <-` the left fold of op over the source chain (46_family5_multi.md R221). -/
def regChain (op : Word → Word → Word) (d s1 s2 s3 s4 : RegIdx) (s : State) : Execution :=
  stageReg d (chainFold op (s.chainValues s1 s2 s3 s4))

/-- The jump target of JMP, CALL and JGTZ: `wrap32(x[B] + imm)` (44_family3_imm_jump.md R182). -/
def State.jumpTarget (s : State) (base : RegIdx) (imm : Word) : Word :=
  addWord (s.readReg base) imm

/-! ### The call stack (10_state.md R31) -/

/-- `depth(STACK) == STACK_DEPTH`; an unbounded stack is never full. -/
def State.stackFull (s : State) : Bool :=
  match s.cfg.stackDepth with
  | .finite n => decide (s.stack.length = n)
  | .unbounded => false

/-! ### SHUF: reads that see the earlier slots (46_family5_multi.md R229) -/

/-- `x[r]` as the writes staged so far leave it: the latest staged write to r, else the register. -/
def State.readStaged (s : State) (writes : List (RegIdx × Word)) (r : RegIdx) : Word :=
  ((writes.reverse.find? fun w => w.1 == r).map Prod.snd).getD (s.readReg r)

/-- The writes of the active slots in order, each reading the value left by the earlier ones. -/
def State.shufWrites (s : State) (slots : List (RegIdx × RegIdx)) : List (RegIdx × Word) :=
  slots.foldl (fun writes p => writes ++ [(p.2, s.readStaged writes p.1)]) []

/-! ### FETCH, DECODE, DISPATCH (40_engine.md R122 to R124) and the terminal run states (R135) -/

/-- The word at the program counter, or nothing at or beyond N (R122). -/
def State.fetchWord (s : State) : Option InstrWord := s.prog[s.pc.toNat]?

/-- What precedes an instruction's own part of a step. -/
inductive FrontEnd where
  /-- Halted or Faulted: no step is taken (R135). -/
  | idle
  /-- A fault of FETCH, DECODE or DISPATCH has been taken. -/
  | trapped (t : State)
  /-- The instruction to run. -/
  | run (i : Instr)
  deriving DecidableEq, Repr

/-- The stages FETCH, DECODE and DISPATCH, with the snapshot of each fault as 60_exceptions.md R243 says. -/
def State.frontEnd (s : State) : FrontEnd :=
  match s.runState with
  | .halted => .idle
  | .faulted => .idle
  | .running =>
    match s.fetchWord with
    | none => .trapped (s.takeFault .fetchOutOfRange Decoded.zero)
    | some w =>
      match decode w with
      | .instr i => .run i
      | .unknownFamily fam opc => .trapped (s.takeFault .unknownFamilyOrOpcode ⟨fam, opc, Fields.zero⟩)
      | .unknownOpcode d => .trapped (s.takeFault .unknownFamilyOrOpcode d)

/-! ### The host's side of the input channel (10_state.md R39, 42_family1_io.md R163) -/

/-- The host supplies further input items, after those not consumed yet. It is no step of the core (log 7). -/
def State.supplyInput (s : State) (items : List InputItem) : State :=
  { s with input := s.input ++ items }

/-- A program image with `word` at index `p`: the words before it stay, and are NOPs where there was none. -/
def placeWord (prog : List InstrWord) (p : Nat) (word : InstrWord) : List InstrWord :=
  if p < prog.length then prog.set p word
  else prog ++ List.replicate (p - prog.length) 0 ++ [word]

end Sys2Proof.Machine
end

