-- ==== Sys2Proof/Machine/Compare.lean ====
section
/-!
DEFINITION. Family 2, unsigned register-register comparisons: LT, GT, EQ, GE, LE (43_family2_compare.md).
-/

namespace Sys2Proof.Machine

/-- LT (R171). -/
def execLt (d a b : RegIdx) (s : State) : Host.Outcome State Fault Refusal :=
  runInstr (.lt d a b) (regReg ltWord d a b) s

/-- GT (R172). -/
def execGt (d a b : RegIdx) (s : State) : Host.Outcome State Fault Refusal :=
  runInstr (.gt d a b) (regReg gtWord d a b) s

/-- EQ (R173). -/
def execEq (d a b : RegIdx) (s : State) : Host.Outcome State Fault Refusal :=
  runInstr (.eq d a b) (regReg eqWord d a b) s

/-- GE (R174). -/
def execGe (d a b : RegIdx) (s : State) : Host.Outcome State Fault Refusal :=
  runInstr (.ge d a b) (regReg geWord d a b) s

/-- LE (R175). -/
def execLe (d a b : RegIdx) (s : State) : Host.Outcome State Fault Refusal :=
  runInstr (.le d a b) (regReg leWord d a b) s

end Sys2Proof.Machine
end

