-- ==== Sys2Proof/Machine/Control.lean ====
section
/-!
DEFINITION. Family 0, no-operand operations: NOP, RET (41_family0_control.md).
-/

namespace Sys2Proof.Machine

/-- NOP (R151): no effect; the engine advances the program counter. -/
def execNop (s : State) : Host.Outcome State Fault Refusal :=
  runInstr .nop (fun _ => .stage {}) s

/-- RET's execution: pop the saved address into the program counter, or StackUnderflow (10_state.md R31). -/
def popJump (s : State) : Execution :=
  match s.stack with
  | [] => .raise .stackUnderflow false
  | t :: _ => .stage { stack := some .pop, target := some t }

/-- RET (R152). -/
def execRet (s : State) : Host.Outcome State Fault Refusal :=
  runInstr .ret popJump s

end Sys2Proof.Machine
end

