-- ==== Sys2Proof/Machine/ImmJump.lean ====
section
/-!
DEFINITION. Family 3, immediate load, jump and call: LI, JMP, CALL (44_family3_imm_jump.md).
-/

namespace Sys2Proof.Machine

/-- LI (R181): the 32-bit immediate, stored exactly. -/
def execLi (d : RegIdx) (imm : Word) (s : State) : Host.Outcome State Fault Refusal :=
  runInstr (.li d imm) (fun _ => stageReg d imm) s

/-- JMP (R182). -/
def execJmp (b : RegIdx) (imm : Word) (s : State) : Host.Outcome State Fault Refusal :=
  runInstr (.jmp b imm) (fun u => stageJump (u.jumpTarget b imm)) s

/-- CALL's execution: push the address of the next instruction, p + 1, and jump; StackOverflow on a full stack
(R183, 90_conflicts.md C1). -/
def pushJump (b : RegIdx) (imm : Word) (s : State) : Execution :=
  if s.stackFull then .raise .stackOverflow false
  else .stage { stack := some (.push (addWord s.pc 1)), target := some (s.jumpTarget b imm) }

/-- CALL (R183). -/
def execCall (b : RegIdx) (imm : Word) (s : State) : Host.Outcome State Fault Refusal :=
  runInstr (.call b imm) (pushJump b imm) s

end Sys2Proof.Machine
end

