-- ==== Sys2Proof/Machine/Io.lean ====
section
/-!
DEFINITION. Family 1, input and output: PRINT, READ (42_family1_io.md).
-/

namespace Sys2Proof.Machine

/-- PRINT's execution: one output event with `wrap32(x[A])`; the mask is the identity on a 32-bit register (R161). -/
def emitReg (a : RegIdx) (s : State) : Execution := .stage { out := some (s.readReg a) }

/-- PRINT (R161). -/
def execPrint (a : RegIdx) (s : State) : Host.Outcome State Fault Refusal :=
  runInstr (.print a) (emitReg a) s

/-- READ's execution: wait for an item; a Malformed one is consumed and raises MalformedInput; an integer of any size
and sign is masked to 32 bits (R162, 40_engine.md R136). -/
def readItem (d : RegIdx) (s : State) : Execution :=
  match s.input with
  | [] => .wait
  | .malformed :: _ => .raise .malformedInput true
  | .int v :: _ => .stage { regs := [(d, wrap32 v)], consumes := true }

/-- READ (R162): the guard comes before any input is requested (R127, D25). -/
def execRead (d : RegIdx) (s : State) : Host.Outcome State Fault Refusal :=
  runInstr (.read d) (readItem d) s

end Sys2Proof.Machine
end

