-- ==== Sys2Proof/Machine/Multi.lean ====
section
/-!
DEFINITION. Family 5, chained multi-operand arithmetic and shuffle move (46_family5_multi.md).
-/

namespace Sys2Proof.Machine

/-- DIV's execution: the quotient is written first, the remainder second, so that with Q = R the remainder stays; a
zero divisor anywhere in the chain faults and writes nothing (R222, D14). -/
def divideChain (q r s1 s2 s3 s4 : RegIdx) (s : State) : Execution :=
  match divChain (s.chainValues s1 s2 s3 s4) with
  | none => .raise .arithmeticFault false
  | some (quotient, remainder) => .stage { regs := [(q, quotient), (r, remainder)] }

/-- DIV (R222). -/
def execDiv (q r s1 s2 s3 s4 : RegIdx) (s : State) : Host.Outcome State Fault Refusal :=
  runInstr (.div q r s1 s2 s3 s4) (divideChain q r s1 s2 s3 s4) s

/-- MUL (R223); f[1] is ignored (R220). -/
def execMul (d e s1 s2 s3 s4 : RegIdx) (s : State) : Host.Outcome State Fault Refusal :=
  runInstr (.mul d e s1 s2 s3 s4) (regChain mulWord d s1 s2 s3 s4) s

/-- ADD (R224); f[1] is ignored (R220). -/
def execAdd (d e s1 s2 s3 s4 : RegIdx) (s : State) : Host.Outcome State Fault Refusal :=
  runInstr (.add d e s1 s2 s3 s4) (regChain addWord d s1 s2 s3 s4) s

/-- SUB (R225); f[1] is ignored (R220). -/
def execSub (d e s1 s2 s3 s4 : RegIdx) (s : State) : Host.Outcome State Fault Refusal :=
  runInstr (.sub d e s1 s2 s3 s4) (regChain subWord d s1 s2 s3 s4) s

/-- AND (R226); f[1] is ignored (R220). -/
def execAnd (d e s1 s2 s3 s4 : RegIdx) (s : State) : Host.Outcome State Fault Refusal :=
  runInstr (.and d e s1 s2 s3 s4) (regChain andWord d s1 s2 s3 s4) s

/-- OR (R227); f[1] is ignored (R220). -/
def execOr (d e s1 s2 s3 s4 : RegIdx) (s : State) : Host.Outcome State Fault Refusal :=
  runInstr (.or d e s1 s2 s3 s4) (regChain orWord d s1 s2 s3 s4) s

/-- XOR (R228); f[1] is ignored (R220). -/
def execXor (d e s1 s2 s3 s4 : RegIdx) (s : State) : Host.Outcome State Fault Refusal :=
  runInstr (.xor d e s1 s2 s3 s4) (regChain xorWord d s1 s2 s3 s4) s

/-- SHUF's execution: the active slots in order (R229). -/
def shuffle (src0 src1 src2 dst0 dst1 dst2 : RegIdx) (s : State) : Execution :=
  .stage { regs := s.shufWrites (activeSlots (shufSlots src0 src1 src2 dst0 dst1 dst2)) }

/-- SHUF (R229). -/
def execShuf (src0 src1 src2 dst0 dst1 dst2 : RegIdx) (s : State) : Host.Outcome State Fault Refusal :=
  runInstr (.shuf src0 src1 src2 dst0 dst1 dst2) (shuffle src0 src1 src2 dst0 dst1 dst2) s

end Sys2Proof.Machine
end

