-- ==== Sys2Proof/Machine/RegImm.lean ====
section
/-!
DEFINITION. Family 4, memory access, register-immediate arithmetic and comparison, conditional jump (45_family4_reg_imm.md).
-/

namespace Sys2Proof.Machine

/-- ST's execution: `MEM[wrap32(x[B] + imm)] <- x[A]`, the roles of f[0] and f[1] by `ST_ROLES`; an address at or
above MEM_SIZE faults (R191, 20_memory.md R63). -/
def storeCell (f0 f1 : RegIdx) (imm : Word) (s : State) : Execution :=
  let a := s.effectiveAddress (stBase s.cfg.stRoles f0 f1) imm
  if s.inRange a then .stage { mem := some (a, s.readReg (stData s.cfg.stRoles f0 f1)) }
  else .raise .outOfRangeMemoryAccess false

/-- ST (R191). -/
def execSt (f0 f1 : RegIdx) (imm : Word) (s : State) : Host.Outcome State Fault Refusal :=
  runInstr (.st f0 f1 imm) (storeCell f0 f1 imm) s

/-- LD's execution: `x[D] <- MEM[wrap32(x[S] + imm)]`, whatever `ST_ROLES` is (R192, 20_memory.md R62). -/
def loadCell (d b : RegIdx) (imm : Word) (s : State) : Execution :=
  let a := s.effectiveAddress b imm
  if s.inRange a then stageReg d (s.mem.read a.toNat)
  else .raise .outOfRangeMemoryAccess false

/-- LD (R192). -/
def execLd (d b : RegIdx) (imm : Word) (s : State) : Host.Outcome State Fault Refusal :=
  runInstr (.ld d b imm) (loadCell d b imm) s

/-- ADDI (R193). -/
def execAddi (d a : RegIdx) (imm : Word) (s : State) : Host.Outcome State Fault Refusal :=
  runInstr (.addi d a imm) (regImm addWord d a imm) s

/-- SUBI (R194). -/
def execSubi (d a : RegIdx) (imm : Word) (s : State) : Host.Outcome State Fault Refusal :=
  runInstr (.subi d a imm) (regImm subWord d a imm) s

/-- MULI (R195). -/
def execMuli (d a : RegIdx) (imm : Word) (s : State) : Host.Outcome State Fault Refusal :=
  runInstr (.muli d a imm) (regImm mulWord d a imm) s

/-- DIVI's execution: `x[D] <- x[S] div imm`, unsigned; a divisor 0 faults (R196). -/
def divideImm (d a : RegIdx) (imm : Word) (s : State) : Execution :=
  if imm = 0 then .raise .arithmeticFault false
  else stageReg d (divWord (s.readReg a) imm)

/-- DIVI (R196). -/
def execDivi (d a : RegIdx) (imm : Word) (s : State) : Host.Outcome State Fault Refusal :=
  runInstr (.divi d a imm) (divideImm d a imm) s

/-- SHRI (R197). -/
def execShri (d a : RegIdx) (imm : Word) (s : State) : Host.Outcome State Fault Refusal :=
  runInstr (.shri d a imm) (regImm shrWord d a imm) s

/-- SHLI (R198). -/
def execShli (d a : RegIdx) (imm : Word) (s : State) : Host.Outcome State Fault Refusal :=
  runInstr (.shli d a imm) (regImm shlWord d a imm) s

/-- ANDI (R199). -/
def execAndi (d a : RegIdx) (imm : Word) (s : State) : Host.Outcome State Fault Refusal :=
  runInstr (.andi d a imm) (regImm andWord d a imm) s

/-- ORI (R200). -/
def execOri (d a : RegIdx) (imm : Word) (s : State) : Host.Outcome State Fault Refusal :=
  runInstr (.ori d a imm) (regImm orWord d a imm) s

/-- XORI (R201). -/
def execXori (d a : RegIdx) (imm : Word) (s : State) : Host.Outcome State Fault Refusal :=
  runInstr (.xori d a imm) (regImm xorWord d a imm) s

/-- LTI (R202). -/
def execLti (d a : RegIdx) (imm : Word) (s : State) : Host.Outcome State Fault Refusal :=
  runInstr (.lti d a imm) (regImm ltWord d a imm) s

/-- GTI (R203). -/
def execGti (d a : RegIdx) (imm : Word) (s : State) : Host.Outcome State Fault Refusal :=
  runInstr (.gti d a imm) (regImm gtWord d a imm) s

/-- EQI (R204). -/
def execEqi (d a : RegIdx) (imm : Word) (s : State) : Host.Outcome State Fault Refusal :=
  runInstr (.eqi d a imm) (regImm eqWord d a imm) s

/-- JGTZ's execution: the transfer if the tested register, read as signed, is above 0, otherwise nothing (R205). -/
def jumpIfPositive (c b : RegIdx) (imm : Word) (s : State) : Execution :=
  if gtZero (s.readReg c) then stageJump (s.jumpTarget b imm) else .stage {}

/-- JGTZ (R205). -/
def execJgtz (c b : RegIdx) (imm : Word) (s : State) : Host.Outcome State Fault Refusal :=
  runInstr (.jgtz c b imm) (jumpIfPositive c b imm) s

end Sys2Proof.Machine
end

