-- ==== Sys2Proof/Machine/Dispatch.lean ====
section
/-!
DEFINITION. The Operation Matrix's meanings: one arm per instruction (30_encoding.md R92, 40_engine.md R124).
-/

namespace Sys2Proof.Machine

/-- The part of a step after DISPATCH, of the instruction `i` in the state `s` as the step began. -/
def exec (i : Instr) (s : State) : Host.Outcome State Fault Refusal :=
  match i with
  | .nop => Sys2Proof.Machine.execNop s
  | .ret => Sys2Proof.Machine.execRet s
  | .print a => Sys2Proof.Machine.execPrint a s
  | .read d => Sys2Proof.Machine.execRead d s
  | .lt d a b => Sys2Proof.Machine.execLt d a b s
  | .gt d a b => Sys2Proof.Machine.execGt d a b s
  | .eq d a b => Sys2Proof.Machine.execEq d a b s
  | .ge d a b => Sys2Proof.Machine.execGe d a b s
  | .le d a b => Sys2Proof.Machine.execLe d a b s
  | .li d imm => Sys2Proof.Machine.execLi d imm s
  | .jmp b imm => Sys2Proof.Machine.execJmp b imm s
  | .call b imm => Sys2Proof.Machine.execCall b imm s
  | .st f0 f1 imm => Sys2Proof.Machine.execSt f0 f1 imm s
  | .ld d b imm => Sys2Proof.Machine.execLd d b imm s
  | .addi d a imm => Sys2Proof.Machine.execAddi d a imm s
  | .subi d a imm => Sys2Proof.Machine.execSubi d a imm s
  | .muli d a imm => Sys2Proof.Machine.execMuli d a imm s
  | .divi d a imm => Sys2Proof.Machine.execDivi d a imm s
  | .shri d a imm => Sys2Proof.Machine.execShri d a imm s
  | .shli d a imm => Sys2Proof.Machine.execShli d a imm s
  | .andi d a imm => Sys2Proof.Machine.execAndi d a imm s
  | .ori d a imm => Sys2Proof.Machine.execOri d a imm s
  | .xori d a imm => Sys2Proof.Machine.execXori d a imm s
  | .lti d a imm => Sys2Proof.Machine.execLti d a imm s
  | .gti d a imm => Sys2Proof.Machine.execGti d a imm s
  | .eqi d a imm => Sys2Proof.Machine.execEqi d a imm s
  | .jgtz c b imm => Sys2Proof.Machine.execJgtz c b imm s
  | .div q r s1 s2 s3 s4 => Sys2Proof.Machine.execDiv q r s1 s2 s3 s4 s
  | .mul d e s1 s2 s3 s4 => Sys2Proof.Machine.execMul d e s1 s2 s3 s4 s
  | .add d e s1 s2 s3 s4 => Sys2Proof.Machine.execAdd d e s1 s2 s3 s4 s
  | .sub d e s1 s2 s3 s4 => Sys2Proof.Machine.execSub d e s1 s2 s3 s4 s
  | .and d e s1 s2 s3 s4 => Sys2Proof.Machine.execAnd d e s1 s2 s3 s4 s
  | .or d e s1 s2 s3 s4 => Sys2Proof.Machine.execOr d e s1 s2 s3 s4 s
  | .xor d e s1 s2 s3 s4 => Sys2Proof.Machine.execXor d e s1 s2 s3 s4 s
  | .shuf src0 src1 src2 dst0 dst1 dst2 => Sys2Proof.Machine.execShuf src0 src1 src2 dst0 dst1 dst2 s

end Sys2Proof.Machine
end

