-- ==== Sys2Proof/Machine/Step.lean ====
section
/-!
DEFINITION. One step of the Execution Engine (40_engine.md R121).
-/

namespace Sys2Proof.Machine

/-- One step: in Halted or Faulted none is taken and the state stays (R135); a fault of FETCH, DECODE or DISPATCH is
taken; otherwise the decoded instruction runs. -/
def step (s : State) : Host.Outcome State Fault Refusal :=
  match s.frontEnd with
  | .idle => .next s
  | .trapped t => .next t
  | .run i => exec i s

/-- `s` with the instruction word of bits `w` (its bits above `nbits` 0) in the program image at the program counter,
and Running, so that the next step fetches and runs it. It stands for the host's loading of a program (log 2). -/
def State.withFetchWord (s : State) (nbits w : Nat) : State :=
  { s with
    prog := placeWord s.prog s.pc.toNat (BitVec.ofNat 64 (w % 2 ^ nbits))
    runState := .running }

end Sys2Proof.Machine
end

