-- ==== Sys2Proof/WellFormed.lean ====
section
/-!
DEFINITION. The checks on what the host hands the core and on decoded tuples. An `Instr` needs no check beyond its
types: each field type has exactly the width of its Layout Table entry, and every register index is legal
(30_encoding.md R87); `Instr.wellFormed` says the same against the Layout Table itself.
Each check has an ill-formed term it refuses in Tests/Slice0.lean.
-/

namespace Sys2Proof

/-- A configuration of R7: `0 <= MEM_SIZE <= 2^32`, and `STACK_DEPTH` a positive integer or unbounded. -/
def Config.wellFormed (c : Config) : Bool :=
  decide (c.memSize ≤ maxMemSize) &&
    match c.stackDepth with
    | .finite n => decide (0 < n)
    | .unbounded => true

/-- A program image of R33: `N <= 2^32 - 1` words. -/
def programWellFormed (prog : List InstrWord) : Bool :=
  decide (prog.length ≤ maxProgramLength)

/-- The fields against a Layout Table row: a declared field fits in its width, an undeclared one is the sentinel 0. -/
def fieldsFit : List Nat → List Word → Bool
  | n :: ns, f :: fs => decide (f.toNat < 2 ^ n) && fieldsFit ns fs
  | [], f :: fs => decide (f = 0) && fieldsFit [] fs
  | _, [] => true

/-- The tuples the encoder of R88 is for: family 0 to 5, `f[k] < 2^(LAYOUT[fam][k])`, unused fields 0. -/
def Decoded.wellFormed (d : Decoded) : Bool :=
  match layoutTable d.family.toNat with
  | some widths => fieldsFit widths d.f.toList
  | none => false

/-- An instruction is well-formed if its tuple is a row of the Operation Matrix and its fields fit the layout. -/
def Instr.wellFormed (i : Instr) : Bool :=
  i.toDecoded.wellFormed && (operationMatrix i.toDecoded).isSome

end Sys2Proof
end

