-- ==== Sys2Proof/Safety.lean ====
section
/-!
DEFINITION. The terms the statements use: the invariant of a run, what one instruction may change (its frame), and the
shape of a rule of files 41 to 46 (its encoding, its faults, its result).
-/

namespace Sys2Proof.Machine

/-! ### The invariant of a run -/

/-- The call stack fits: `depth(STACK) <= STACK_DEPTH` (10_state.md R29, R41). -/
def State.stackFits (s : State) : Bool :=
  match s.cfg.stackDepth with
  | .finite n => decide (s.stack.length ≤ n)
  | .unbounded => true

/-- What every state of a run satisfies: the run inputs are in the ranges of 00_scope.md R7; memory has its canonical
form within MEM_SIZE (20_memory.md R60, R64); the call stack fits and holds return addresses 1 to N (10_state.md R41,
41_family0_control.md R152 c); Running means pc is not N and Halted that it is (40_engine.md R122, R132); FAULT is
recorded exactly in Faulted, for the unchanged pc, and FetchOutOfRange exactly beyond N (10_state.md R35, R240, R243). -/
abbrev State.Inv (s : State) : Prop :=
  s.cfg.wellFormed = true ∧
  programWellFormed s.prog = true ∧
  s.mem.wf ∧
  (∀ c ∈ s.mem, c.1 < s.cfg.memSize) ∧
  s.stackFits = true ∧
  (∀ v ∈ s.stack, 0 < v.toNat ∧ v.toNat ≤ s.progLength) ∧
  (s.runState = .running → s.pc.toNat ≠ s.progLength) ∧
  (s.runState = .halted → s.pc.toNat = s.progLength) ∧
  (s.fault.isSome = true ↔ s.runState = .faulted) ∧
  (∀ f ∈ s.fault, f.pc = s.pc ∧ (f.kind = .fetchOutOfRange ↔ s.progLength < s.pc.toNat))

/-! ### Frames -/

/-- A register a generic write may name (40_engine.md R127): neither x[0] nor x[1]. -/
abbrev Writable (d : RegIdx) : Prop := d ≠ 0 ∧ d ≠ 1

/-- Every register outside `written` reads as before. x[1], the program counter, is treated apart. -/
def KeepsRegisters (s t : State) (written : List RegIdx) : Prop :=
  ∀ r, r ≠ 1 → r ∉ written → t.readReg r = s.readReg r

/-- Every memory cell reads as before. -/
def KeepsMemory (s t : State) : Prop := ∀ a, t.mem.read a = s.mem.read a

/-- The step has committed and advanced to `p` (R131 to R133): ICOUNT counts it, the run halts exactly if `p` is N, and
the run inputs and FAULT stay. -/
def CommitsTo (s t : State) (p : Word) : Prop :=
  t.pc = p ∧ t.icount = s.icount + 1 ∧
  t.runState = (if p.toNat = s.progLength then .halted else s.runState) ∧
  t.fault = s.fault ∧ t.prog = s.prog ∧ t.cfg = s.cfg

/-- The input and output channels stay. -/
def KeepsChannels (s t : State) : Prop := t.input = s.input ∧ t.output = s.output

/-- The instruction answers a next state in which x[d] is `v`, the pc has advanced by one and ICOUNT by one, and every
other register, every memory cell, the stack, the channels, the run inputs and FAULT are unchanged. -/
def WritesRegister (i : Instr) (s : State) (d : RegIdx) (v : Word) : Prop :=
  ∃ t, exec i s = .next t ∧ t.readReg d = v ∧ KeepsRegisters s t [d] ∧ KeepsMemory s t ∧
    t.stack = s.stack ∧ KeepsChannels s t ∧ CommitsTo s t (s.pc + 1)

/-- The instruction answers a next state at `p` with the call stack `stack`, and ICOUNT advanced by one; every register
but x[1], every memory cell, the channels, the run inputs and FAULT are unchanged. -/
def TransfersTo (i : Instr) (s : State) (p : Word) (stack : List Word) : Prop :=
  ∃ t, exec i s = .next t ∧ KeepsRegisters s t [] ∧ KeepsMemory s t ∧ t.stack = stack ∧ KeepsChannels s t ∧
    CommitsTo s t p

/-- The instruction takes a fault (R134, R243): FAULT holds `kind` and the tuple, at the unchanged pc; the run is
Faulted; nothing else changes. -/
def Faults (i : Instr) (s : State) (kind : FaultKind) (family opcode : Byte) (f : Fields) : Prop :=
  exec i s = .next { s with runState := .faulted, fault := some ⟨kind, s.pc, family, opcode, f⟩ }

/-! ### The shapes of the rules of files 41 to 46 -/

/-- `w[hi:lo]` as `n` bits from bit `lo`; the two fixed fields of a word are those of (family, opcode) (R81). -/
def HasCode (w : InstrWord) (family opcode : Byte) : Prop :=
  w.extractLsb' 0 8 = family ∧ w.extractLsb' 8 8 = opcode

/-- A field that holds a register index, as the snapshot reports it. -/
abbrev wide (r : RegIdx) : Word := r.setWidth 32

/-- A comparison of family 2 (R170 to R175): encoding, write guard, result. -/
def ComparisonRule (mk : RegIdx → RegIdx → RegIdx → Instr) (opcode : Byte) (rel : Nat → Nat → Bool) : Prop :=
  (∀ w : InstrWord, HasCode w 2 opcode →
    decode w = .instr (mk (w.extractLsb' 16 8) (w.extractLsb' 24 8) (w.extractLsb' 32 8))) ∧
  (∀ d a b s, d = 0 ∨ d = 1 →
    Faults (mk d a b) s .illegalRegisterWrite 2 opcode ⟨wide d, wide a, wide b, 0, 0, 0⟩) ∧
  (∀ d a b s, Writable d →
    WritesRegister (mk d a b) s d (if rel (s.readReg a).toNat (s.readReg b).toNat then 1 else 0))

/-- The encoding of a family-4 operation: every bit of the word is consumed (R83, R190). -/
def Family4Encoding (mk : RegIdx → RegIdx → Word → Instr) (opcode : Byte) : Prop :=
  ∀ w : InstrWord, HasCode w 4 opcode →
    decode w = .instr (mk (w.extractLsb' 16 8) (w.extractLsb' 24 8) (w.extractLsb' 32 32))

/-- The write guard of a family-4 operation with DEST = {D}. -/
def Family4Guard (mk : RegIdx → RegIdx → Word → Instr) (opcode : Byte) : Prop :=
  ∀ d a imm s, d = 0 ∨ d = 1 →
    Faults (mk d a imm) s .illegalRegisterWrite 4 opcode ⟨wide d, wide a, imm, 0, 0, 0⟩

/-- A register-immediate operation of family 4 that has no fault but the guard's: encoding, guard, result. -/
def RegImmRule (mk : RegIdx → RegIdx → Word → Instr) (opcode : Byte) (op : Word → Word → Word) : Prop :=
  Family4Encoding mk opcode ∧ Family4Guard mk opcode ∧
  (∀ d a imm s, Writable d → WritesRegister (mk d a imm) s d (op (s.readReg a) imm))

/-- The encoding of a family-5 operation: six register fields (R83). -/
def Family5Encoding (mk : RegIdx → RegIdx → RegIdx → RegIdx → RegIdx → RegIdx → Instr) (opcode : Byte) : Prop :=
  ∀ w : InstrWord, HasCode w 5 opcode →
    decode w = .instr (mk (w.extractLsb' 16 8) (w.extractLsb' 24 8) (w.extractLsb' 32 8)
      (w.extractLsb' 40 8) (w.extractLsb' 48 8) (w.extractLsb' 56 8))

/-- The optional chained sources: f[4] and f[5] up to the first that is 0 (R221). -/
def chained (s3 s4 : RegIdx) : List RegIdx :=
  if s3 = 0 then [] else if s4 = 0 then [s3] else [s3, s4]

/-- A chained operation of family 5 other than DIV and SHUF (R220, R221): encoding, guard of f[0] alone, and the left
fold over f[2], f[3] and the chained sources; f[1] is neither read nor guarded. -/
def ChainRule (mk : RegIdx → RegIdx → RegIdx → RegIdx → RegIdx → RegIdx → Instr) (opcode : Byte)
    (op : Word → Word → Word) : Prop :=
  Family5Encoding mk opcode ∧
  (∀ d e s1 s2 s3 s4 s, d = 0 ∨ d = 1 →
    Faults (mk d e s1 s2 s3 s4) s .illegalRegisterWrite 5 opcode
      ⟨wide d, wide e, wide s1, wide s2, wide s3, wide s4⟩) ∧
  (∀ d e s1 s2 s3 s4 s, Writable d →
    WritesRegister (mk d e s1 s2 s3 s4) s d
      (((chained s3 s4).map s.readReg).foldl op (op (s.readReg s1) (s.readReg s2))))

/-! ### Tables of the spec the statements compare the model with -/

/-- The `match` column of R92: bits [15:0] of the words of the 35 rows. -/
def matchValues : List (BitVec 16) :=
  [0x0000, 0x0100,
   0x0001, 0x0101,
   0x0002, 0x0102, 0x0202, 0x0302, 0x0402,
   0x0003, 0x0103, 0x0203,
   0x0004, 0x0104, 0x0204, 0x0304, 0x0404, 0x0504, 0x0604, 0x0704, 0x0804, 0x0904, 0x0A04, 0x0B04, 0x0C04, 0x0D04, 0x0E04,
   0x0005, 0x0105, 0x0205, 0x0305, 0x0405, 0x0505, 0x0605, 0x0705]

/-- The column "bits consumed" of R83, as a count from bit 0; no family above 5 is in it. -/
def consumedBits (family : Nat) : Nat :=
  match family with
  | 0 => 16
  | 1 => 24
  | 2 => 40
  | 3 => 56
  | _ => 64

/-- Two words that differ at most in bits their family ignores (R86). -/
def DifferOnlyInIgnoredBits (w w' : InstrWord) : Prop :=
  w.toNat % 2 ^ consumedBits (w.extractLsb' 0 8).toNat = w'.toNat % 2 ^ consumedBits (w.extractLsb' 0 8).toNat

/-- The next x[1] of a step that commits, by operation (40_engine.md R137). -/
def nextPc (i : Instr) (s : State) : Word :=
  match i with
  | .ret => s.stack.headD 0
  | .jmp b imm => s.readReg b + imm
  | .call b imm => s.readReg b + imm
  | .jgtz c b imm => if 0 < (s.readReg c).toInt then s.readReg b + imm else s.pc + 1
  | _ => s.pc + 1

/-- The fault kinds each instruction can raise (60_exceptions.md R241). -/
def possibleFaults (i : Instr) : List FaultKind :=
  match i with
  | .nop => []
  | .ret => [.stackUnderflow]
  | .print _ => []
  | .read _ => [.illegalRegisterWrite, .malformedInput]
  | .jmp _ _ => []
  | .call _ _ => [.stackOverflow]
  | .st _ _ _ => [.outOfRangeMemoryAccess]
  | .ld _ _ _ => [.illegalRegisterWrite, .outOfRangeMemoryAccess]
  | .divi _ _ _ => [.illegalRegisterWrite, .arithmeticFault]
  | .jgtz _ _ _ => []
  | .div _ _ _ _ _ _ => [.illegalRegisterWrite, .arithmeticFault]
  | _ => [.illegalRegisterWrite]

/-! ### What the next step of a state runs -/

/-- The core is Running and the word at the program counter is `w` (R122). -/
def Fetches (s : State) (w : InstrWord) : Prop := s.runState = .running ∧ s.prog[s.pc.toNat]? = some w

/-- The core is Running and the word at the program counter decodes to `i`. -/
def AboutToRun (s : State) (i : Instr) : Prop := ∃ w, Fetches s w ∧ decode w = .instr i

/-! ### Reference computations -/

/-- SHUF as R229 writes it: each active slot copies its source, as the earlier slots left it, to its destination. -/
def shufReference (x : RegIdx → Word) (slots : List (RegIdx × RegIdx)) : RegIdx → Word :=
  slots.foldl (fun y p => if p.1 = 0 then y else Function.update y p.2 (y p.1)) x

/-- The quotient of DIV over its divisors, from left to right (R222). -/
def quotientOf (x : Word) (divisors : List Word) : Word := divisors.foldl (fun q d => q / d) x

/-- The remainder of DIV: that of the last division (R222). -/
def remainderOf (x : Word) (divisors : List Word) : Word :=
  quotientOf x divisors.dropLast % divisors.getLastD 0

/-- A chained operation of two steps equals the two-operand operations one after the other (95_test_vectors.md E8): the
third source by a second instruction that takes the destination and it, and the fourth by a third. -/
def ChainSplits (mk : RegIdx → RegIdx → RegIdx → RegIdx → RegIdx → RegIdx → Instr) : Prop :=
  ∀ d e s1 s2 s3 s4 s, Writable d → Writable s3 → s3 ≠ d → Writable s4 → s4 ≠ d →
    ∃ t3 t4 u2 u3 u4,
      exec (mk d e s1 s2 s3 0) s = .next t3 ∧ exec (mk d e s1 s2 s3 s4) s = .next t4 ∧
      exec (mk d e s1 s2 0 0) s = .next u2 ∧ exec (mk d e d s3 0 0) u2 = .next u3 ∧
      exec (mk d e d s4 0 0) u3 = .next u4 ∧
      u3.readReg d = t3.readReg d ∧ u4.readReg d = t4.readReg d

end Sys2Proof.Machine
end

