-- ==== Sys2Proof/Certificates/Slice0/Obligations.lean ====
section
/-!
DEFINITION. The statements for the provers, from the numbered rules of spec/. Every statement is for all states and,
through `State.cfg`, for every MEM_SIZE, STACK_DEPTH and ST_ROLES (00_scope.md R7).
-/

open Sys2Proof Sys2Proof.Machine

/-! ## Encoding (30_encoding.md) -/

/-- R88: the encoder's sum; decoding an encoded tuple gives it back; and re-encoding a decoded word of a known family
gives the word on every consumed bit, its ignored bits 0. -/
def Obligations.DecodingIsLossless : Prop :=
  (∀ (d : Decoded) (widths : List Nat), d.wellFormed = true → layoutTable d.family.toNat = some widths →
    (encodeFields d).toNat = d.family.toNat + d.opcode.toNat * 2 ^ 8 +
      ((List.range widths.length).map fun k =>
        (d.f.toList.getD k 0).toNat * 2 ^ (16 + (widths.take k).sum)).sum ∧
    decodeFields (encodeFields d) = some d) ∧
  (∀ w : InstrWord, (w.extractLsb' 0 8).toNat ≤ 5 → ∃ d, decodeFields w = some d ∧
    (encodeFields d).toNat = w.toNat % 2 ^ consumedBits (w.extractLsb' 0 8).toNat)

/-- Decode and encode agree on every instruction, with every operand at every value its field admits. -/
def Obligations.InstructionsRoundTrip : Prop :=
  ∀ i : Instr, decode (encode i) = .instr i

/-- R81, R84 (the table of R83): where the two fixed fields and every operand field lie, an undeclared field being 0,
for every word; a family above 5 has no decode. -/
def Obligations.FieldPositions : Prop :=
  ∀ w : InstrWord,
    let fam := w.extractLsb' 0 8
    let opc := w.extractLsb' 8 8
    let byteAt := fun lo => ((w.extractLsb' lo 8).setWidth 32 : Word)
    let wordAt := fun lo => w.extractLsb' lo 32
    (fam = 0 → decodeFields w = some ⟨fam, opc, ⟨0, 0, 0, 0, 0, 0⟩⟩) ∧
    (fam = 1 → decodeFields w = some ⟨fam, opc, ⟨byteAt 16, 0, 0, 0, 0, 0⟩⟩) ∧
    (fam = 2 → decodeFields w = some ⟨fam, opc, ⟨byteAt 16, byteAt 24, byteAt 32, 0, 0, 0⟩⟩) ∧
    (fam = 3 → decodeFields w = some ⟨fam, opc, ⟨byteAt 16, wordAt 24, 0, 0, 0, 0⟩⟩) ∧
    (fam = 4 → decodeFields w = some ⟨fam, opc, ⟨byteAt 16, byteAt 24, wordAt 32, 0, 0, 0⟩⟩) ∧
    (fam = 5 → decodeFields w =
      some ⟨fam, opc, ⟨byteAt 16, byteAt 24, byteAt 32, byteAt 40, byteAt 48, byteAt 56⟩⟩) ∧
    (5 < fam.toNat → decodeFields w = none)

/-- R86: two words that differ only in ignored bits decode alike, and a step runs them alike. -/
def Obligations.IgnoredBitsHaveNoEffect : Prop :=
  (∀ w w' : InstrWord, DifferOnlyInIgnoredBits w w' → decode w = decode w') ∧
  (∀ s t w w', Fetches s w → DifferOnlyInIgnoredBits w w' → step s = .next t →
    step { s with prog := s.prog.set s.pc.toNat w' } = .next { t with prog := s.prog.set s.pc.toNat w' })

/-- A word decodes to an instruction exactly if its bits [15:0] are one of the 35 match values of the table of R92
(R94). -/
def Obligations.ExactlyTheListedPairsDecode : Prop :=
  ∀ w : InstrWord, (∃ i, decode w = .instr i) ↔ w.extractLsb' 0 16 ∈ matchValues

/-- Every other word faults with UnknownFamilyOrOpcode (R93); the snapshot's fields are 0 for an unknown family (R84, R85;
the spec's decision D29) and the family's decode otherwise. -/
def Obligations.UnlistedWordsFault : Prop :=
  ∀ s w, Fetches s w → w.extractLsb' 0 16 ∉ matchValues →
    (5 < (w.extractLsb' 0 8).toNat → step s = .next { s with
      runState := .faulted
      fault := some ⟨.unknownFamilyOrOpcode, s.pc, w.extractLsb' 0 8, w.extractLsb' 8 8, ⟨0, 0, 0, 0, 0, 0⟩⟩ }) ∧
    ((w.extractLsb' 0 8).toNat ≤ 5 → ∃ d, decodeFields w = some d ∧ step s = .next { s with
      runState := .faulted
      fault := some ⟨.unknownFamilyOrOpcode, s.pc, d.family, d.opcode, d.f⟩ })

/-- Words of 95_test_vectors.md, one of each family, decode to the instruction they stand for. -/
def Obligations.SampleWordsDecode : Prop :=
  decode 0x0000000000000100 = .instr .ret ∧
  decode 0x0000000000020101 = .instr (.read 2) ∧
  decode 0x0000000302040102 = .instr (.gt 4 2 3) ∧
  decode 0x00DEADBEEF070003 = .instr (.li 7 0xDEADBEEF) ∧
  decode 0xFFFFFFFE01020E04 = .instr (.jgtz 2 1 0xFFFFFFFE) ∧
  decode 0x0605030200040205 = .instr (.add 4 0 2 3 5 6)

/-! ## The step (40_engine.md) -/

/-- When the word at the program counter decodes to `i`, the step is `exec i`. -/
def Obligations.StepRunsTheDecodedInstruction : Prop :=
  ∀ s w i, Fetches s w → decode w = .instr i → step s = exec i s

/-- FETCH (R122; the fault beyond N is the spec's decision D23): a fetch at or beyond N faults with FetchOutOfRange
and an empty snapshot; below N the word PROG[p] is what is decoded, and run or rejected; and p = N does not occur in a
Running state of a run. -/
def Obligations.FetchReadsTheProgramImage : Prop :=
  (∀ s : State, s.runState = .running → s.progLength ≤ s.pc.toNat → step s = .next { s with
    runState := .faulted
    fault := some ⟨.fetchOutOfRange, s.pc, 0, 0, ⟨0, 0, 0, 0, 0, 0⟩⟩ }) ∧
  (∀ (s : State) (i : Instr) (h : s.pc.toNat < s.prog.length), s.runState = .running →
    decode s.prog[s.pc.toNat] = .instr i → step s = exec i s) ∧
  (∀ (s : State) (h : s.pc.toNat < s.prog.length), s.runState = .running →
    (∀ i, decode s.prog[s.pc.toNat] ≠ .instr i) → ∃ f : Fields, step s = .next { s with
      runState := .faulted
      fault := some ⟨.unknownFamilyOrOpcode, s.pc, s.prog[s.pc.toNat].extractLsb' 0 8,
        s.prog[s.pc.toNat].extractLsb' 8 8, f⟩ }) ∧
  (∀ s : State, s.Inv → s.runState = .running → s.pc.toNat ≠ s.progLength)

/-- Halted and Faulted are terminal (R121, R135): any number of steps leaves the whole state as it is. That "no step
is taken" answers the same state is the model's form (log 4). -/
def Obligations.TerminalStatesStay : Prop :=
  ∀ s : State, s.runState ≠ .running → ∀ n, Host.Core.run Sys2Proof.core n s = Host.Outcome.next s

/-- A READ whose guard passes waits (R136, R254), unchanged, for any number of steps while no item is there, and goes
on once the host supplies one. That a step that waits answers the same state is the model's form (log 4). -/
def Obligations.ReadWaitsForInput : Prop :=
  (∀ d s, Writable d → s.input = [] → exec (.read d) s = .next s) ∧
  (∀ s d, AboutToRun s (.read d) → Writable d → s.input = [] →
    (∀ n, Host.Core.run Sys2Proof.core n s = Host.Outcome.next s) ∧
    (∀ v rest, ∃ t, step (s.supplyInput (.int v :: rest)) = .next t ∧
      ((t.readReg d).toNat : Int) = v % 2 ^ 32 ∧ t.input = rest ∧ t.icount = s.icount + 1))

/-- Every step of every state answers a next state: no instruction is refused and every fault of the spec is taken
(the model's reading of 60_exceptions.md R243 and 40_engine.md R135, R136, logs 3 and 4). -/
def Obligations.EveryStepAnswersNext : Prop :=
  ∀ s, ∃ t, step s = .next t

/-- A Running step commits and counts, or takes a fault with nothing else changed but a consumed Malformed item, or
waits for input (R120, R133, R244; the form of the wait is the model's, log 4). -/
def Obligations.StepIsAllOrNothing : Prop :=
  ∀ s t : State, s.runState = .running → step s = .next t →
    (t.icount = s.icount + 1 ∧ t.fault = s.fault ∧
      t.runState = (if t.pc.toNat = s.progLength then .halted else .running)) ∨
    (∃ snap : Snapshot, snap.pc = s.pc ∧
      t = { s with runState := .faulted, fault := some snap, input := t.input } ∧
      (t.input = s.input ∨ (snap.kind = .malformedInput ∧ s.input = .malformed :: t.input))) ∨
    (t = s ∧ s.input = [] ∧ ∃ d, AboutToRun s (.read d))

/-- R132: the run halts exactly when, after the ADVANCE of a step that commits, x[1] is N; it is no fault. -/
def Obligations.HaltsExactlyAtN : Prop :=
  ∀ s t : State, s.runState = .running → step s = .next t → t.icount = s.icount + 1 →
    (t.runState = .halted ↔ t.pc.toNat = s.progLength) ∧ t.runState ≠ .faulted ∧ t.fault = s.fault

/-- What a fault in any stage records and leaves (R134, R243; the zeros of a snapshot without a decode are the spec's
decision D29). -/
def Obligations.FaultEntryRecordsTheSnapshot : Prop :=
  ∀ s t : State, s.runState = .running → step s = .next t → t.runState = .faulted →
    ∃ (k : FaultKind) (d : Decoded),
      t = { s with
        runState := .faulted
        fault := some ⟨k, s.pc, d.family, d.opcode, d.f⟩
        input := t.input } ∧
      (t.input = s.input ∨ (k = .malformedInput ∧ s.input = .malformed :: t.input)) ∧
      (s.progLength ≤ s.pc.toNat → k = .fetchOutOfRange ∧ d = ⟨0, 0, ⟨0, 0, 0, 0, 0, 0⟩⟩) ∧
      (∀ w, s.prog[s.pc.toNat]? = some w → k ≠ .fetchOutOfRange ∧
        (5 < (w.extractLsb' 0 8).toNat → k = .unknownFamilyOrOpcode ∧
          d = ⟨w.extractLsb' 0 8, w.extractLsb' 8 8, ⟨0, 0, 0, 0, 0, 0⟩⟩) ∧
        ((w.extractLsb' 0 8).toNat ≤ 5 → decodeFields w = some d))

/-- The write guard (R127; before EXECUTE and before any input, the spec's decisions D19 and D25): an instruction with
register 0 or 1 in its destination set faults and changes nothing else. -/
def Obligations.WriteGuardFaults : Prop :=
  ∀ i s, (∃ d ∈ destinations i, d = 0 ∨ d = 1) →
    Faults i s .illegalRegisterWrite i.toDecoded.family i.toDecoded.opcode i.toDecoded.f

/-- R22: register 0 reads 0 in every state, and an instruction that would write it faults before any state changes. -/
def Obligations.NullRegisterReadsZero : Prop :=
  (∀ s : State, s.readReg 0 = 0) ∧
  (∀ i s, 0 ∈ destinations i →
    Faults i s .illegalRegisterWrite i.toDecoded.family i.toDecoded.opcode i.toDecoded.f)

/-- The frame of every instruction on the registers (R125, R128, R130): only x[1] and its destination set change. -/
def Obligations.OnlyDestinationsChange : Prop :=
  ∀ i s t r, exec i s = .next t → r ≠ 1 → r ∉ destinations i → t.readReg r = s.readReg r

/-- The next x[1] of every instruction that commits, by the table of R137 (which the spec derives from R129 and R131);
and the instruction there is the next one executed. -/
def Obligations.NextProgramCounter : Prop :=
  (∀ i s t, exec i s = .next t → t.icount = s.icount + 1 → t.pc = nextPc i s) ∧
  (∀ i s t w j, exec i s = .next t → t.icount = s.icount + 1 → t.runState = .running →
    s.prog[(nextPc i s).toNat]? = some w → decode w = .instr j → step t = exec j t)

/-- A control transfer to its own address repeats for ever (the examples of R138, which the spec derives; the general
sentence of R138 does not hold of a RET, whose next pop differs): JMP r1, 0; a taken JGTZ rC, r1, 0; CALL r1, 0 on an
unbounded stack, pushing each time. On a stack of STACK_DEPTH entries the CALL fills it and then faults. -/
def Obligations.SelfTransfersRepeat : Prop :=
  (∀ s n, AboutToRun s (.jmp 1 0) →
    Host.Core.run Sys2Proof.core n s = Host.Outcome.next { s with icount := s.icount + n }) ∧
  (∀ s n c, AboutToRun s (.jgtz c 1 0) → 0 < (s.readReg c).toInt →
    Host.Core.run Sys2Proof.core n s = Host.Outcome.next { s with icount := s.icount + n }) ∧
  (∀ s n, AboutToRun s (.call 1 0) → s.cfg.stackDepth = .unbounded →
    Host.Core.run Sys2Proof.core n s = Host.Outcome.next { s with
      stack := List.replicate n (s.pc + 1) ++ s.stack
      icount := s.icount + n }) ∧
  (∀ s n, AboutToRun s (.call 1 0) → s.cfg.stackDepth = .finite (s.stack.length + n) →
    Host.Core.run Sys2Proof.core (n + 1) s = Host.Outcome.next { s with
      stack := List.replicate n (s.pc + 1) ++ s.stack
      icount := s.icount + n
      runState := .faulted
      fault := some ⟨.stackOverflow, s.pc, 3, 2, ⟨1, 0, 0, 0, 0, 0⟩⟩ })

/-! ## State, reset and the invariant (10_state.md, 70_reset_and_hazards.md) -/

/-- The invariant of a run is kept by every step of every state that has it. The canonical form of memory and FAULT's
`none` outside Faulted, two of its clauses, are the model's choices (logs 5 and 6). -/
def Obligations.StepKeepsTheInvariant : Prop :=
  ∀ s t : State, s.Inv → step s = .next t → t.Inv

/-- The creation of a run with a well-formed configuration and program image has the invariant; State.reset is one. The
parameters and the empty program of State.reset are the model's choices (logs 1 and 2), as are two clauses of the
invariant (logs 5 and 6). -/
def Obligations.CreationMeetsTheInvariant : Prop :=
  (∀ cfg prog input, cfg.wellFormed = true → programWellFormed prog = true → (State.create cfg prog input).Inv) ∧
  State.reset.Inv

/-- R271: what the creation of a run leaves. FAULT is undefined after reset, and nothing is said of it. -/
def Obligations.CreationResetsTheState : Prop :=
  ∀ cfg prog input,
    (∀ r, (State.create cfg prog input).readReg r = 0) ∧
    (∀ a, (State.create cfg prog input).mem.read a = 0) ∧
    (State.create cfg prog input).stack = [] ∧
    (State.create cfg prog input).icount = 0 ∧
    (State.create cfg prog input).input = input ∧
    (State.create cfg prog input).output = []

/-- Where a run starts (R272, which the spec derives from R132): an empty program is Halted at once and takes no step;
any other is Running at index 0, and its first step runs PROG[0]. -/
def Obligations.RunsStartAtIndexZero : Prop :=
  ∀ cfg input,
    ((State.create cfg [] input).runState = .halted ∧
      step (State.create cfg [] input) = .next (State.create cfg [] input)) ∧
    (∀ w ws, Fetches (State.create cfg (w :: ws) input) w ∧
      ∀ i, decode w = .instr i →
        step (State.create cfg (w :: ws) input) = exec i (State.create cfg (w :: ws) input))

/-- No step changes the program image or the configuration (R33, R41, R74). -/
def Obligations.RunInputsNeverChange : Prop :=
  ∀ s t, step s = .next t → t.prog = s.prog ∧ t.cfg = s.cfg

/-- R65: a step of any instruction but ST and LD, and any step that runs none, neither reads nor writes memory. -/
def Obligations.OnlyLoadAndStoreAccessMemory : Prop :=
  ∀ s t m, (∀ f0 f1 imm, ¬ AboutToRun s (.st f0 f1 imm)) → (∀ d b imm, ¬ AboutToRun s (.ld d b imm)) →
    step s = .next t → t.mem = s.mem ∧ step { s with mem := m } = .next { t with mem := m }

/-- R30: a step of any instruction but CALL and RET neither reads nor changes the call stack. -/
def Obligations.OnlyCallAndReturnAccessTheStack : Prop :=
  ∀ s t k, (∀ b imm, ¬ AboutToRun s (.call b imm)) → ¬ AboutToRun s .ret →
    step s = .next t → t.stack = s.stack ∧ step { s with stack := k } = .next { t with stack := k }

/-- Only READ reads or consumes input items, and only PRINT emits (R160, R163; the channels as lists are the model's
form, log 7). -/
def Obligations.OnlyReadAndPrintUseTheChannels : Prop :=
  (∀ s t xs, (∀ d, ¬ AboutToRun s (.read d)) → step s = .next t →
    t.input = s.input ∧ step { s with input := xs } = .next { t with input := xs }) ∧
  (∀ s t, (∀ a, ¬ AboutToRun s (.print a)) → step s = .next t → t.output = s.output) ∧
  (∀ s t ys, step s = .next t →
    step { s with output := ys ++ s.output } = .next { t with output := ys ++ t.output })

/-- ICOUNT and FAULT are outputs only (R36, R37): no step's other effects depend on them. That FAULT holds `none`
outside Faulted is the model's choice (log 6); nothing here rests on it. -/
def Obligations.StatusIsNotProgramVisible : Prop :=
  ∀ (s t : State) (n : Nat) (f : Option Snapshot), s.runState = .running → step s = .next t →
    step { s with icount := s.icount + n } = .next { t with icount := t.icount + n } ∧
    step { s with fault := f } = .next { t with fault := if t.runState = .faulted then t.fault else f }

/-- Items the host supplies behind those already there do not change what a step does, unless it waits for one (R163;
that they queue behind is the model's form of the channel, log 7). -/
def Obligations.SuppliedItemsWaitTheirTurn : Prop :=
  ∀ s t xs, step s = .next t → (∀ d, AboutToRun s (.read d) → s.input ≠ []) →
    step (s.supplyInput xs) = .next (t.supplyInput xs)

/-- The numeric codes of the eight fault kinds (the table of R240, the spec's own numbering). -/
def Obligations.FaultCodes : Prop :=
  faultCode .illegalRegisterWrite = 1 ∧ faultCode .unknownFamilyOrOpcode = 2 ∧
  faultCode .outOfRangeMemoryAccess = 3 ∧ faultCode .stackUnderflow = 4 ∧ faultCode .arithmeticFault = 5 ∧
  faultCode .malformedInput = 6 ∧ faultCode .stackOverflow = 7 ∧ faultCode .fetchOutOfRange = 8

/-- An instruction raises no fault kind but those listed for it (R241, which the spec derives). -/
def Obligations.InstructionsRaiseOnlyTheirFaults : Prop :=
  ∀ i s t snap, s.runState = .running → exec i s = .next t → t.runState = .faulted → t.fault = some snap →
    snap.kind ∈ possibleFaults i

/-! ## Family 0 (41_family0_control.md) -/

/-- R151: NOP. -/
def Obligations.NopAdvancesOnly : Prop :=
  (∀ w, HasCode w 0 0 → decode w = .instr .nop) ∧
  (∀ s, TransfersTo .nop s (s.pc + 1) s.stack)

/-- RET (R152; corner case (c) is derived by the spec from R183 and R122): RET pops the top of the call stack into the
program counter; an empty stack faults; in a run the popped value is at most N. -/
def Obligations.ReturnPopsIntoPc : Prop :=
  (∀ w, HasCode w 0 1 → decode w = .instr .ret) ∧
  (∀ s, s.stack = [] → Faults .ret s .stackUnderflow 0 1 ⟨0, 0, 0, 0, 0, 0⟩) ∧
  (∀ s v rest, s.stack = v :: rest → TransfersTo .ret s v rest) ∧
  (∀ (s : State) v rest, s.Inv → s.stack = v :: rest → 0 < v.toNat ∧ v.toNat ≤ s.progLength)

/-- Call and return are balanced (R183, R152; the spec's decision D21): a RET on the stack a CALL left resumes after
the CALL, with the stack as it was. -/
def Obligations.CallReturnIsBalanced : Prop :=
  ∀ s t u b imm, exec (.call b imm) s = .next t → t.icount = s.icount + 1 → u.stack = t.stack →
    ∃ v, exec .ret u = .next v ∧ v.pc = s.pc + 1 ∧ v.stack = s.stack

/-! ## Family 1 (42_family1_io.md) -/

/-- PRINT (R161; the event and its order are the spec's decision D27, the list of events the model's form, log 7): one
event with the register's value, after every earlier one. -/
def Obligations.PrintEmitsTheRegister : Prop :=
  (∀ w : InstrWord, HasCode w 1 0 → decode w = .instr (.print (w.extractLsb' 16 8))) ∧
  (∀ a s, ∃ t, exec (.print a) s = .next t ∧ t.output = s.output ++ [s.readReg a] ∧ t.input = s.input ∧
    KeepsRegisters s t [] ∧ KeepsMemory s t ∧ t.stack = s.stack ∧ CommitsTo s t (s.pc + 1))

/-- READ (R162; the spec's decisions D25 and D26): the guard before any input; a wait (its form is the model's, log
4); a Malformed item, consumed; an integer, masked to 32 bits. -/
def Obligations.ReadTakesOneItem : Prop :=
  (∀ w : InstrWord, HasCode w 1 1 → decode w = .instr (.read (w.extractLsb' 16 8))) ∧
  (∀ d s, d = 0 ∨ d = 1 → Faults (.read d) s .illegalRegisterWrite 1 1 ⟨wide d, 0, 0, 0, 0, 0⟩) ∧
  (∀ d s, Writable d → s.input = [] → exec (.read d) s = .next s) ∧
  (∀ d s rest, Writable d → s.input = .malformed :: rest → exec (.read d) s = .next { s with
    input := rest
    runState := .faulted
    fault := some ⟨.malformedInput, s.pc, 1, 1, ⟨wide d, 0, 0, 0, 0, 0⟩⟩ }) ∧
  (∀ d s v rest, Writable d → s.input = .int v :: rest → ∃ t, exec (.read d) s = .next t ∧
    ((t.readReg d).toNat : Int) = v % 2 ^ 32 ∧ t.input = rest ∧ t.output = s.output ∧
    KeepsRegisters s t [d] ∧ KeepsMemory s t ∧ t.stack = s.stack ∧ CommitsTo s t (s.pc + 1))

/-! ## Family 2 (43_family2_compare.md) -/

/-- LT, GT, EQ, GE, LE (R170 to R175): the five comparisons, of unsigned values (the spec's decision D9). -/
def Obligations.ComparisonsWriteOneOrZero : Prop :=
  ComparisonRule .lt 0 (fun x y => x < y) ∧ ComparisonRule .gt 1 (fun x y => x > y) ∧
  ComparisonRule .eq 2 (fun x y => x = y) ∧ ComparisonRule .ge 3 (fun x y => x ≥ y) ∧
  ComparisonRule .le 4 (fun x y => x ≤ y)

/-! ## Family 3 (44_family3_imm_jump.md) -/

/-- R181: LI. -/
def Obligations.LoadImmediateStoresExactly : Prop :=
  (∀ w : InstrWord, HasCode w 3 0 → decode w = .instr (.li (w.extractLsb' 16 8) (w.extractLsb' 24 32))) ∧
  (∀ d imm s, d = 0 ∨ d = 1 → Faults (.li d imm) s .illegalRegisterWrite 3 0 ⟨wide d, imm, 0, 0, 0, 0⟩) ∧
  (∀ d imm s, Writable d → WritesRegister (.li d imm) s d imm)

/-- JMP (R182; the sum modulo 2^32 is the spec's decision D4, the fault beyond N its D23), and the FetchOutOfRange of
the next step when the target lies beyond N. -/
def Obligations.JumpAddsModulo : Prop :=
  (∀ w : InstrWord, HasCode w 3 1 → decode w = .instr (.jmp (w.extractLsb' 16 8) (w.extractLsb' 24 32))) ∧
  (∀ b imm s, TransfersTo (.jmp b imm) s (s.readReg b + imm) s.stack) ∧
  (∀ b imm s t, s.runState = .running → exec (.jmp b imm) s = .next t →
    s.progLength < (s.readReg b + imm).toNat → step t = .next { t with
      runState := .faulted
      fault := some ⟨.fetchOutOfRange, s.readReg b + imm, 0, 0, ⟨0, 0, 0, 0, 0, 0⟩⟩ })

/-- CALL (R183; p + 1 is the spec's decision D21, the full stack its D24) pushes p + 1 and jumps; a stack of
STACK_DEPTH entries faults. -/
def Obligations.CallPushesTheNextIndex : Prop :=
  (∀ w : InstrWord, HasCode w 3 2 → decode w = .instr (.call (w.extractLsb' 16 8) (w.extractLsb' 24 32))) ∧
  (∀ b imm s, s.cfg.stackDepth = .finite s.stack.length →
    Faults (.call b imm) s .stackOverflow 3 2 ⟨wide b, imm, 0, 0, 0, 0⟩) ∧
  (∀ b imm s, s.cfg.stackDepth ≠ .finite s.stack.length →
    TransfersTo (.call b imm) s (s.readReg b + imm) ((s.pc + 1) :: s.stack))

/-! ## Family 4 (45_family4_reg_imm.md) -/

/-- ST (R191, 20_memory.md R61, R63, R64; the roles are the spec's decision D8, the address modulo 2^32 its D7) under
both ST_ROLES: the one cell at the effective address changes. -/
def Obligations.StoreWritesOneCell : Prop :=
  Family4Encoding .st 0 ∧
  (∀ (s : State) b imm, s.effectiveAddress b imm = s.readReg b + imm) ∧
  (∀ f0 f1 imm s data base,
    (s.cfg.stRoles = .dataF0BaseF1 ∧ data = f0 ∧ base = f1) ∨
      (s.cfg.stRoles = .dataF1BaseF0 ∧ data = f1 ∧ base = f0) →
    (s.cfg.memSize ≤ (s.effectiveAddress base imm).toNat →
      Faults (.st f0 f1 imm) s .outOfRangeMemoryAccess 4 0 ⟨wide f0, wide f1, imm, 0, 0, 0⟩) ∧
    ((s.effectiveAddress base imm).toNat < s.cfg.memSize → ∃ t, exec (.st f0 f1 imm) s = .next t ∧
      t.mem.read (s.effectiveAddress base imm).toNat = s.readReg data ∧
      (∀ a, a ≠ (s.effectiveAddress base imm).toNat → t.mem.read a = s.mem.read a) ∧
      KeepsRegisters s t [] ∧ t.stack = s.stack ∧ KeepsChannels s t ∧ CommitsTo s t (s.pc + 1)))

/-- LD (R192, 20_memory.md R61, R62, R64; the spec's decision D7), whatever ST_ROLES is; the guard before the bounds
check (D19). -/
def Obligations.LoadReadsOneCell : Prop :=
  Family4Encoding .ld 1 ∧ Family4Guard .ld 1 ∧
  (∀ d b imm s, Writable d → s.cfg.memSize ≤ (s.readReg b + imm).toNat →
    Faults (.ld d b imm) s .outOfRangeMemoryAccess 4 1 ⟨wide d, wide b, imm, 0, 0, 0⟩) ∧
  (∀ d b imm s, Writable d → (s.readReg b + imm).toNat < s.cfg.memSize →
    WritesRegister (.ld d b imm) s d (s.mem.read (s.readReg b + imm).toNat))

/-- A load after a store that completed (R71, which the spec derives) gives the stored value at the address stored to,
and the older value elsewhere. -/
def Obligations.LoadReturnsTheLatestStore : Prop :=
  ∀ s t u f0 f1 imm d b imm', exec (.st f0 f1 imm) s = .next t → t.icount = s.icount + 1 → Writable d →
    exec (.ld d b imm') t = .next u → u.icount = t.icount + 1 →
    u.readReg d =
      if t.readReg b + imm' = s.effectiveAddress (stBase s.cfg.stRoles f0 f1) imm
      then s.readReg (stData s.cfg.stRoles f0 f1)
      else s.mem.read (t.readReg b + imm').toNat

/-- ADDI, SUBI, MULI (R193 to R195) modulo 2^32 (the spec's decision D3). -/
def Obligations.ImmediateArithmeticWraps : Prop :=
  RegImmRule .addi 2 (fun x imm => x + imm) ∧ RegImmRule .subi 3 (fun x imm => x - imm) ∧
  RegImmRule .muli 4 (fun x imm => x * imm)

/-- DIVI (R196), unsigned (the spec's decision D12); a zero divisor faults, after the guard (D19). -/
def Obligations.ImmediateDivisionIsUnsigned : Prop :=
  Family4Encoding .divi 5 ∧ Family4Guard .divi 5 ∧
  (∀ d a s, Writable d → Faults (.divi d a 0) s .arithmeticFault 4 5 ⟨wide d, wide a, 0, 0, 0, 0⟩) ∧
  (∀ d a imm s, Writable d → imm ≠ 0 →
    WritesRegister (.divi d a imm) s d (BitVec.ofNat 32 ((s.readReg a).toNat / imm.toNat)))

/-- SHRI, SHLI (R197, R198): the logical shifts by the whole 32-bit amount (the spec's decision D11). -/
def Obligations.ShiftsUseTheWholeAmount : Prop :=
  RegImmRule .shri 6 (fun x imm => BitVec.ofNat 32 (x.toNat / 2 ^ imm.toNat)) ∧
  RegImmRule .shli 7 (fun x imm => BitVec.ofNat 32 (x.toNat * 2 ^ imm.toNat))

/-- R199 to R201: ANDI, ORI, XORI. -/
def Obligations.ImmediateLogicIsBitwise : Prop :=
  RegImmRule .andi 8 (fun x imm => x &&& imm) ∧ RegImmRule .ori 9 (fun x imm => x ||| imm) ∧
  RegImmRule .xori 10 (fun x imm => x ^^^ imm)

/-- LTI, GTI, EQI (R202 to R204): the comparisons with an immediate, unsigned (the spec's decision D9). -/
def Obligations.ImmediateComparisons : Prop :=
  RegImmRule .lti 11 (fun x imm => if x.toNat < imm.toNat then 1 else 0) ∧
  RegImmRule .gti 12 (fun x imm => if imm.toNat < x.toNat then 1 else 0) ∧
  RegImmRule .eqi 13 (fun x imm => if x = imm then 1 else 0)

/-- JGTZ (R205; the signed reading is the spec's decision D10, the sum modulo 2^32 its D4) is taken exactly for 1 <=
x[C] <= 0x7FFFFFFF, the values above zero as signed. -/
def Obligations.JumpIfGreaterThanZero : Prop :=
  Family4Encoding .jgtz 14 ∧
  (∀ v : Word, 0 < v.toInt ↔ 1 ≤ v.toNat ∧ v.toNat ≤ 0x7FFFFFFF) ∧
  (∀ c b imm s, 0 < (s.readReg c).toInt → TransfersTo (.jgtz c b imm) s (s.readReg b + imm) s.stack) ∧
  (∀ c b imm s, ¬ 0 < (s.readReg c).toInt → TransfersTo (.jgtz c b imm) s (s.pc + 1) s.stack)

/-! ## Family 5 (46_family5_multi.md) -/

/-- DIV (R222; the spec's decisions D12 to D15): the guard on both destinations, a zero divisor anywhere in the chain,
and the stepwise division. -/
def Obligations.DivisionGoesStepwise : Prop :=
  Family5Encoding .div 0 ∧
  (∀ q r s1 s2 s3 s4 s, (q = 0 ∨ q = 1) ∨ (r = 0 ∨ r = 1) →
    Faults (.div q r s1 s2 s3 s4) s .illegalRegisterWrite 5 0
      ⟨wide q, wide r, wide s1, wide s2, wide s3, wide s4⟩) ∧
  (∀ q r s1 s2 s3 s4 s, Writable q → Writable r → (∃ k ∈ s2 :: chained s3 s4, s.readReg k = 0) →
    Faults (.div q r s1 s2 s3 s4) s .arithmeticFault 5 0
      ⟨wide q, wide r, wide s1, wide s2, wide s3, wide s4⟩) ∧
  (∀ q r s1 s2 s3 s4 s, Writable q → Writable r → (∀ k ∈ s2 :: chained s3 s4, s.readReg k ≠ 0) →
    ∃ t, exec (.div q r s1 s2 s3 s4) s = .next t ∧
      (q ≠ r → t.readReg q = quotientOf (s.readReg s1) ((s2 :: chained s3 s4).map s.readReg)) ∧
      t.readReg r = remainderOf (s.readReg s1) ((s2 :: chained s3 s4).map s.readReg) ∧
      KeepsRegisters s t [q, r] ∧ KeepsMemory s t ∧ t.stack = s.stack ∧ KeepsChannels s t ∧
      CommitsTo s t (s.pc + 1))

/-- MUL, ADD, SUB (R223 to R225) over the chain (the spec's decision D13), modulo 2^32 (D3),
f[1] ignored (D16). -/
def Obligations.ArithmeticChainsFoldLeft : Prop :=
  ChainRule .mul 1 (fun x y => x * y) ∧ ChainRule .add 2 (fun x y => x + y) ∧ ChainRule .sub 3 (fun x y => x - y)

/-- AND, OR, XOR (R226 to R228) over the chain (the spec's decision D13), f[1] ignored (D16). -/
def Obligations.LogicChainsFoldLeft : Prop :=
  ChainRule .and 4 (fun x y => x &&& y) ∧ ChainRule .or 5 (fun x y => x ||| y) ∧
  ChainRule .xor 6 (fun x y => x ^^^ y)

/-- A chained operation equals the two-operand operations of its opcode one after the other (R221, 95_test_vectors.md
E8; which fields end a chain is the spec's decision D13). -/
def Obligations.ChainsEqualTwoOperandSequences : Prop :=
  ChainSplits .mul ∧ ChainSplits .add ∧ ChainSplits .sub ∧ ChainSplits .and ∧ ChainSplits .or ∧ ChainSplits .xor

/-- SHUF (R229; the sequence and the guard on active slots only are the spec's decision D17). -/
def Obligations.ShuffleActsInSequence : Prop :=
  Family5Encoding .shuf 7 ∧
  (∀ a b c x y z s, (a ≠ 0 ∧ (x = 0 ∨ x = 1)) ∨ (b ≠ 0 ∧ (y = 0 ∨ y = 1)) ∨ (c ≠ 0 ∧ (z = 0 ∨ z = 1)) →
    Faults (.shuf a b c x y z) s .illegalRegisterWrite 5 7 ⟨wide a, wide b, wide c, wide x, wide y, wide z⟩) ∧
  (∀ a b c x y z s, (a ≠ 0 → Writable x) → (b ≠ 0 → Writable y) → (c ≠ 0 → Writable z) →
    ∃ t, exec (.shuf a b c x y z) s = .next t ∧
      (∀ r, r ≠ 1 → t.readReg r = shufReference s.readReg [(a, x), (b, y), (c, z)] r) ∧
      KeepsMemory s t ∧ t.stack = s.stack ∧ KeepsChannels s t ∧ CommitsTo s t (s.pc + 1))

/-! ## Idioms (30_encoding.md R97) -/

/-- The nine idioms of R97, which the spec derives, have the effects its table gives. -/
def Obligations.IdiomsHaveTheirEffects : Prop :=
  (∀ d a s, Writable d → WritesRegister (.addi d a 0) s d (s.readReg a)) ∧
  (∀ d a s, Writable d → a ≠ 0 → WritesRegister (.shuf a 0 0 d 0 0) s d (s.readReg a)) ∧
  (∀ d s, Writable d → WritesRegister (.li d 0) s d 0) ∧
  (∀ d a s, Writable d → WritesRegister (.sub d 0 0 a 0 0) s d (0 - s.readReg a)) ∧
  (∀ d a s, Writable d → WritesRegister (.xori d a 0xFFFFFFFF) s d (~~~ s.readReg a)) ∧
  (∀ target s, TransfersTo (.jmp 0 target) s target s.stack) ∧
  (∀ k s, TransfersTo (.jmp 1 k) s (s.pc + k) s.stack) ∧
  (∀ target s, target.toNat = s.progLength → ∃ t, exec (.jmp 0 target) s = .next t ∧ t.pc = target ∧
    t.runState = .halted) ∧
  (∀ c k s, 0 < (s.readReg c).toInt → TransfersTo (.jgtz c 1 k) s (s.pc + k) s.stack) ∧
  (∀ c k s, ¬ 0 < (s.readReg c).toInt → TransfersTo (.jgtz c 1 k) s (s.pc + 1) s.stack)
end

