-- ==== Sys2Proof/Laws/Arith.lean ====
section
/-!
SUPPORT. What the arithmetic of Machine/Arith.lean and the conditions of Machine/Flags.lean are as 32-bit operations.
-/

namespace Sys2Proof.Machine

@[simp] theorem addWord_eq (x y : Word) : addWord x y = x + y := by
  apply BitVec.eq_of_toNat_eq
  simp only [addWord, wrap32, BitVec.toNat_ofInt, BitVec.toNat_add]
  omega

@[simp] theorem subWord_eq (x y : Word) : subWord x y = x - y := by
  apply BitVec.eq_of_toNat_eq
  have := x.isLt
  have := y.isLt
  simp only [subWord, wrap32, BitVec.toNat_ofInt, BitVec.toNat_sub]
  omega

@[simp] theorem mulWord_eq (x y : Word) : mulWord x y = x * y := by
  apply BitVec.eq_of_toNat_eq
  rw [mulWord, wrap32, BitVec.toNat_ofInt, BitVec.toNat_mul, ← Int.natCast_mul]
  norm_cast

theorem divWord_eq (x y : Word) : divWord x y = x / y := by
  apply BitVec.eq_of_toNat_eq
  have hx := x.isLt
  have := Nat.div_le_self x.toNat y.toNat
  rw [divWord, BitVec.toNat_ofNat, BitVec.toNat_udiv, Nat.mod_eq_of_lt (by omega)]

theorem modWord_eq (x y : Word) : modWord x y = x % y := by
  apply BitVec.eq_of_toNat_eq
  have hx := x.isLt
  have := Nat.mod_le x.toNat y.toNat
  rw [modWord, BitVec.toNat_ofNat, BitVec.toNat_umod, Nat.mod_eq_of_lt (by omega)]

/-- R197's formula, for every amount. -/
theorem shrWord_eq (x n : Word) : shrWord x n = BitVec.ofNat 32 (x.toNat / 2 ^ n.toNat) := by
  unfold shrWord
  split
  · rfl
  · rename_i h
    have hx := x.isLt
    have : 2 ^ 32 ≤ 2 ^ n.toNat := Nat.pow_le_pow_right (by omega) (by omega)
    rw [Nat.div_eq_of_lt (by omega)]; rfl

/-- R198's formula, for every amount. -/
theorem shlWord_eq (x n : Word) : shlWord x n = BitVec.ofNat 32 (x.toNat * 2 ^ n.toNat) := by
  unfold shlWord
  split
  · rfl
  · rename_i h
    have : 2 ^ n.toNat = 2 ^ 32 * 2 ^ (n.toNat - 32) := by rw [← pow_add]; congr 1; omega
    apply BitVec.eq_of_toNat_eq
    rw [this, BitVec.toNat_ofNat, Nat.mul_left_comm, Nat.mul_mod_right]; rfl

theorem gtZero_iff (v : Word) : gtZero v = true ↔ 0 < v.toInt := by simp [gtZero]

/-- The fold over a chain of two or more values. -/
@[simp] theorem chainFold_cons_cons (op : Word → Word → Word) (u v : Word) (vs : List Word) :
    chainFold op (u :: v :: vs) = vs.foldl op (op u v) := rfl

@[simp] theorem divLoop_nil (q r : Word) : divLoop q r [] = some (q, r) := rfl

@[simp] theorem divLoop_cons (q r d : Word) (ds : List Word) :
    divLoop q r (d :: ds) = if d = 0 then none else divLoop (divWord q d) (modWord q d) ds := rfl

/-- A chain of DIV stops at a zero divisor, and only there. -/
theorem divLoop_eq_none (q r : Word) (ds : List Word) : divLoop q r ds = none ↔ 0 ∈ ds := by
  induction ds generalizing q r with
  | nil => simp
  | cons d ds ih =>
    rw [divLoop_cons]
    by_cases hd : d = 0
    · simp [hd]
    · rw [if_neg hd, ih, List.mem_cons]
      exact ⟨.inr, fun h => h.resolve_left fun h0 => hd h0.symm⟩

end Sys2Proof.Machine
end

