-- ==== Sys2Proof/Laws/State.lean ====
section
/-!
SUPPORT. One lemma for each field and each update of the state, and the register file's read after a write, so that no
later proof unfolds a record update.
-/

namespace Sys2Proof.Machine

/-! ### The register file -/

theorem State.readReg_zero (s : State) : s.readReg 0 = 0 := rfl

theorem State.readReg_one (s : State) : s.readReg 1 = s.pc := rfl

/-- `readReg_zero` in simp's own spelling of a numeral. -/
@[simp] theorem State.readReg_zero_ofNat (s : State) : s.readReg 0#8 = 0#32 := rfl

/-- `readReg_one` in simp's own spelling of a numeral. -/
@[simp] theorem State.readReg_one_ofNat (s : State) : s.readReg 1#8 = s.pc := rfl

/-- A general register is its entry of the register file. -/
theorem State.readReg_gpr (s : State) {r : RegIdx} (h0 : r ≠ 0) (h1 : r ≠ 1) :
    s.readReg r = s.gpr[r.toNat - 2]'(by have := r.isLt; omega) := by
  unfold State.readReg; rw [if_neg h0, if_neg h1]

/-- Two states with the same program counter and register file read every register alike. -/
theorem State.readReg_congr {s t : State} (hp : t.pc = s.pc) (hg : t.gpr = s.gpr) (r : RegIdx) :
    t.readReg r = s.readReg r := by
  unfold State.readReg; rw [hp, hg]

/-- Every register but x[1] is the same in two states with one register file. -/
theorem State.readReg_congr_gpr {s t : State} (hg : t.gpr = s.gpr) {r : RegIdx} (hr : r ≠ 1) :
    t.readReg r = s.readReg r := by
  unfold State.readReg; rw [if_neg hr, if_neg hr, hg]

@[simp] theorem State.writeReg_cfg (s : State) (r : RegIdx) (v : Word) : (s.writeReg r v).cfg = s.cfg := by
  unfold State.writeReg; split <;> rfl
@[simp] theorem State.writeReg_prog (s : State) (r : RegIdx) (v : Word) : (s.writeReg r v).prog = s.prog := by
  unfold State.writeReg; split <;> rfl
@[simp] theorem State.writeReg_pc (s : State) (r : RegIdx) (v : Word) : (s.writeReg r v).pc = s.pc := by
  unfold State.writeReg; split <;> rfl
@[simp] theorem State.writeReg_mem (s : State) (r : RegIdx) (v : Word) : (s.writeReg r v).mem = s.mem := by
  unfold State.writeReg; split <;> rfl
@[simp] theorem State.writeReg_stack (s : State) (r : RegIdx) (v : Word) : (s.writeReg r v).stack = s.stack := by
  unfold State.writeReg; split <;> rfl
@[simp] theorem State.writeReg_runState (s : State) (r : RegIdx) (v : Word) : (s.writeReg r v).runState = s.runState := by
  unfold State.writeReg; split <;> rfl
@[simp] theorem State.writeReg_fault (s : State) (r : RegIdx) (v : Word) : (s.writeReg r v).fault = s.fault := by
  unfold State.writeReg; split <;> rfl
@[simp] theorem State.writeReg_icount (s : State) (r : RegIdx) (v : Word) : (s.writeReg r v).icount = s.icount := by
  unfold State.writeReg; split <;> rfl
@[simp] theorem State.writeReg_input (s : State) (r : RegIdx) (v : Word) : (s.writeReg r v).input = s.input := by
  unfold State.writeReg; split <;> rfl
@[simp] theorem State.writeReg_output (s : State) (r : RegIdx) (v : Word) : (s.writeReg r v).output = s.output := by
  unfold State.writeReg; split <;> rfl

/-- A register read after a generic write: the written value at a general register, every other one as before. -/
theorem State.readReg_writeReg (s : State) (d : RegIdx) (v : Word) (r : RegIdx) :
    (s.writeReg d v).readReg r = if r = d ∧ d ≠ 0 ∧ d ≠ 1 then v else s.readReg r := by
  by_cases hd : d = 0 ∨ d = 1
  · have hw : s.writeReg d v = s := by unfold State.writeReg; rw [if_pos hd]
    rw [hw, if_neg (by tauto)]
  · obtain ⟨d0, d1⟩ := not_or.1 hd
    by_cases hr : r = 0 ∨ r = 1
    · rw [if_neg (by rintro ⟨rfl, -⟩; exact hd hr)]
      rcases hr with rfl | rfl
      · rfl
      · exact State.writeReg_pc s d v
    · obtain ⟨r0, r1⟩ := not_or.1 hr
      have hw : (s.writeReg d v).gpr = s.gpr.set (d.toNat - 2) v (by have := d.isLt; omega) := by
        unfold State.writeReg; rw [if_neg hd]
      rw [State.readReg_gpr _ r0 r1, State.readReg_gpr _ r0 r1]
      simp only [hw, Vector.getElem_set]
      have e0 : r.toNat ≠ 0 := fun h => r0 (BitVec.eq_of_toNat_eq (by simpa using h))
      have e1 : r.toNat ≠ 1 := fun h => r1 (BitVec.eq_of_toNat_eq (by simpa using h))
      have f0 : d.toNat ≠ 0 := fun h => d0 (BitVec.eq_of_toNat_eq (by simpa using h))
      have f1 : d.toNat ≠ 1 := fun h => d1 (BitVec.eq_of_toNat_eq (by simpa using h))
      by_cases hrd : r = d
      · subst hrd; rw [if_pos rfl, if_pos ⟨rfl, d0, d1⟩]
      · rw [if_neg fun h => hrd (BitVec.eq_of_toNat_eq (by omega)), if_neg fun h => hrd h.1]

/-- The written register, when a generic write may name it. -/
theorem State.readReg_writeReg_self (s : State) {d : RegIdx} (h0 : d ≠ 0) (h1 : d ≠ 1) (v : Word) :
    (s.writeReg d v).readReg d = v := by
  rw [State.readReg_writeReg, if_pos ⟨rfl, h0, h1⟩]

/-- Every other register. -/
theorem State.readReg_writeReg_of_ne (s : State) {d r : RegIdx} (h : r ≠ d) (v : Word) :
    (s.writeReg d v).readReg r = s.readReg r := by
  rw [State.readReg_writeReg, if_neg fun e => h e.1]

/-! ### The staged effects, one by one -/

@[simp] theorem State.commitRegs_nil (s : State) : s.commitRegs [] = s := rfl

@[simp] theorem State.commitRegs_cons (s : State) (w : RegIdx × Word) (ws : List (RegIdx × Word)) :
    s.commitRegs (w :: ws) = (s.writeReg w.1 w.2).commitRegs ws := rfl

@[simp] theorem State.commitRegs_cfg (s : State) (ws : List (RegIdx × Word)) : (s.commitRegs ws).cfg = s.cfg := by
  induction ws generalizing s with
  | nil => rfl
  | cons w ws ih => rw [State.commitRegs_cons, ih, State.writeReg_cfg]
@[simp] theorem State.commitRegs_prog (s : State) (ws : List (RegIdx × Word)) : (s.commitRegs ws).prog = s.prog := by
  induction ws generalizing s with
  | nil => rfl
  | cons w ws ih => rw [State.commitRegs_cons, ih, State.writeReg_prog]
@[simp] theorem State.commitRegs_pc (s : State) (ws : List (RegIdx × Word)) : (s.commitRegs ws).pc = s.pc := by
  induction ws generalizing s with
  | nil => rfl
  | cons w ws ih => rw [State.commitRegs_cons, ih, State.writeReg_pc]
@[simp] theorem State.commitRegs_mem (s : State) (ws : List (RegIdx × Word)) : (s.commitRegs ws).mem = s.mem := by
  induction ws generalizing s with
  | nil => rfl
  | cons w ws ih => rw [State.commitRegs_cons, ih, State.writeReg_mem]
@[simp] theorem State.commitRegs_stack (s : State) (ws : List (RegIdx × Word)) : (s.commitRegs ws).stack = s.stack := by
  induction ws generalizing s with
  | nil => rfl
  | cons w ws ih => rw [State.commitRegs_cons, ih, State.writeReg_stack]
@[simp] theorem State.commitRegs_runState (s : State) (ws : List (RegIdx × Word)) : (s.commitRegs ws).runState = s.runState := by
  induction ws generalizing s with
  | nil => rfl
  | cons w ws ih => rw [State.commitRegs_cons, ih, State.writeReg_runState]
@[simp] theorem State.commitRegs_fault (s : State) (ws : List (RegIdx × Word)) : (s.commitRegs ws).fault = s.fault := by
  induction ws generalizing s with
  | nil => rfl
  | cons w ws ih => rw [State.commitRegs_cons, ih, State.writeReg_fault]
@[simp] theorem State.commitRegs_icount (s : State) (ws : List (RegIdx × Word)) : (s.commitRegs ws).icount = s.icount := by
  induction ws generalizing s with
  | nil => rfl
  | cons w ws ih => rw [State.commitRegs_cons, ih, State.writeReg_icount]
@[simp] theorem State.commitRegs_input (s : State) (ws : List (RegIdx × Word)) : (s.commitRegs ws).input = s.input := by
  induction ws generalizing s with
  | nil => rfl
  | cons w ws ih => rw [State.commitRegs_cons, ih, State.writeReg_input]
@[simp] theorem State.commitRegs_output (s : State) (ws : List (RegIdx × Word)) : (s.commitRegs ws).output = s.output := by
  induction ws generalizing s with
  | nil => rfl
  | cons w ws ih => rw [State.commitRegs_cons, ih, State.writeReg_output]

/-- A register no staged write names keeps its value. -/
theorem State.readReg_commitRegs_of_notMem (s : State) {ws : List (RegIdx × Word)} {r : RegIdx}
    (h : r ∉ ws.map Prod.fst) : (s.commitRegs ws).readReg r = s.readReg r := by
  induction ws generalizing s with
  | nil => rfl
  | cons w ws ih =>
    simp only [List.map_cons, List.mem_cons, not_or] at h
    rw [State.commitRegs_cons, ih _ h.2, State.readReg_writeReg, if_neg (by tauto)]

@[simp] theorem State.commitMem_cfg (s : State) (w : Option (Word × Word)) : (s.commitMem w).cfg = s.cfg := by
  cases w <;> rfl
@[simp] theorem State.commitMem_prog (s : State) (w : Option (Word × Word)) : (s.commitMem w).prog = s.prog := by
  cases w <;> rfl
@[simp] theorem State.commitMem_gpr (s : State) (w : Option (Word × Word)) : (s.commitMem w).gpr = s.gpr := by
  cases w <;> rfl
@[simp] theorem State.commitMem_pc (s : State) (w : Option (Word × Word)) : (s.commitMem w).pc = s.pc := by
  cases w <;> rfl
@[simp] theorem State.commitMem_stack (s : State) (w : Option (Word × Word)) : (s.commitMem w).stack = s.stack := by
  cases w <;> rfl
@[simp] theorem State.commitMem_runState (s : State) (w : Option (Word × Word)) : (s.commitMem w).runState = s.runState := by
  cases w <;> rfl
@[simp] theorem State.commitMem_fault (s : State) (w : Option (Word × Word)) : (s.commitMem w).fault = s.fault := by
  cases w <;> rfl
@[simp] theorem State.commitMem_icount (s : State) (w : Option (Word × Word)) : (s.commitMem w).icount = s.icount := by
  cases w <;> rfl
@[simp] theorem State.commitMem_input (s : State) (w : Option (Word × Word)) : (s.commitMem w).input = s.input := by
  cases w <;> rfl
@[simp] theorem State.commitMem_output (s : State) (w : Option (Word × Word)) : (s.commitMem w).output = s.output := by
  cases w <;> rfl
@[simp] theorem State.commitStack_cfg (s : State) (op : Option StackOp) : (s.commitStack op).cfg = s.cfg := by
  rcases op with _ | _ | _ <;> rfl
@[simp] theorem State.commitStack_prog (s : State) (op : Option StackOp) : (s.commitStack op).prog = s.prog := by
  rcases op with _ | _ | _ <;> rfl
@[simp] theorem State.commitStack_gpr (s : State) (op : Option StackOp) : (s.commitStack op).gpr = s.gpr := by
  rcases op with _ | _ | _ <;> rfl
@[simp] theorem State.commitStack_pc (s : State) (op : Option StackOp) : (s.commitStack op).pc = s.pc := by
  rcases op with _ | _ | _ <;> rfl
@[simp] theorem State.commitStack_mem (s : State) (op : Option StackOp) : (s.commitStack op).mem = s.mem := by
  rcases op with _ | _ | _ <;> rfl
@[simp] theorem State.commitStack_runState (s : State) (op : Option StackOp) : (s.commitStack op).runState = s.runState := by
  rcases op with _ | _ | _ <;> rfl
@[simp] theorem State.commitStack_fault (s : State) (op : Option StackOp) : (s.commitStack op).fault = s.fault := by
  rcases op with _ | _ | _ <;> rfl
@[simp] theorem State.commitStack_icount (s : State) (op : Option StackOp) : (s.commitStack op).icount = s.icount := by
  rcases op with _ | _ | _ <;> rfl
@[simp] theorem State.commitStack_input (s : State) (op : Option StackOp) : (s.commitStack op).input = s.input := by
  rcases op with _ | _ | _ <;> rfl
@[simp] theorem State.commitStack_output (s : State) (op : Option StackOp) : (s.commitStack op).output = s.output := by
  rcases op with _ | _ | _ <;> rfl
@[simp] theorem State.commitOutput_cfg (s : State) (out : Option Word) : (s.commitOutput out).cfg = s.cfg := by
  cases out <;> rfl
@[simp] theorem State.commitOutput_prog (s : State) (out : Option Word) : (s.commitOutput out).prog = s.prog := by
  cases out <;> rfl
@[simp] theorem State.commitOutput_gpr (s : State) (out : Option Word) : (s.commitOutput out).gpr = s.gpr := by
  cases out <;> rfl
@[simp] theorem State.commitOutput_pc (s : State) (out : Option Word) : (s.commitOutput out).pc = s.pc := by
  cases out <;> rfl
@[simp] theorem State.commitOutput_mem (s : State) (out : Option Word) : (s.commitOutput out).mem = s.mem := by
  cases out <;> rfl
@[simp] theorem State.commitOutput_stack (s : State) (out : Option Word) : (s.commitOutput out).stack = s.stack := by
  cases out <;> rfl
@[simp] theorem State.commitOutput_runState (s : State) (out : Option Word) : (s.commitOutput out).runState = s.runState := by
  cases out <;> rfl
@[simp] theorem State.commitOutput_fault (s : State) (out : Option Word) : (s.commitOutput out).fault = s.fault := by
  cases out <;> rfl
@[simp] theorem State.commitOutput_icount (s : State) (out : Option Word) : (s.commitOutput out).icount = s.icount := by
  cases out <;> rfl
@[simp] theorem State.commitOutput_input (s : State) (out : Option Word) : (s.commitOutput out).input = s.input := by
  cases out <;> rfl
@[simp] theorem State.consumeInput_cfg (s : State) (c : Bool) : (s.consumeInput c).cfg = s.cfg := by
  cases c <;> rfl
@[simp] theorem State.consumeInput_prog (s : State) (c : Bool) : (s.consumeInput c).prog = s.prog := by
  cases c <;> rfl
@[simp] theorem State.consumeInput_gpr (s : State) (c : Bool) : (s.consumeInput c).gpr = s.gpr := by
  cases c <;> rfl
@[simp] theorem State.consumeInput_pc (s : State) (c : Bool) : (s.consumeInput c).pc = s.pc := by
  cases c <;> rfl
@[simp] theorem State.consumeInput_mem (s : State) (c : Bool) : (s.consumeInput c).mem = s.mem := by
  cases c <;> rfl
@[simp] theorem State.consumeInput_stack (s : State) (c : Bool) : (s.consumeInput c).stack = s.stack := by
  cases c <;> rfl
@[simp] theorem State.consumeInput_runState (s : State) (c : Bool) : (s.consumeInput c).runState = s.runState := by
  cases c <;> rfl
@[simp] theorem State.consumeInput_fault (s : State) (c : Bool) : (s.consumeInput c).fault = s.fault := by
  cases c <;> rfl
@[simp] theorem State.consumeInput_icount (s : State) (c : Bool) : (s.consumeInput c).icount = s.icount := by
  cases c <;> rfl
@[simp] theorem State.consumeInput_output (s : State) (c : Bool) : (s.consumeInput c).output = s.output := by
  cases c <;> rfl

@[simp] theorem State.commitMem_none (s : State) : s.commitMem none = s := rfl
@[simp] theorem State.commitMem_some_mem (s : State) (a v : Word) :
    (s.commitMem (some (a, v))).mem = s.mem.write a.toNat v := rfl
@[simp] theorem State.commitStack_none (s : State) : s.commitStack none = s := rfl
@[simp] theorem State.commitStack_push_stack (s : State) (v : Word) :
    (s.commitStack (some (.push v))).stack = v :: s.stack := rfl
@[simp] theorem State.commitStack_pop_stack (s : State) : (s.commitStack (some .pop)).stack = s.stack.tail := rfl
@[simp] theorem State.commitOutput_none (s : State) : s.commitOutput none = s := rfl
@[simp] theorem State.commitOutput_some_output (s : State) (v : Word) :
    (s.commitOutput (some v)).output = s.output ++ [v] := rfl
@[simp] theorem State.consumeInput_false (s : State) : s.consumeInput false = s := rfl
@[simp] theorem State.consumeInput_true_input (s : State) : (s.consumeInput true).input = s.input.tail := rfl

/-! ### COMMIT, ADVANCE, fault entry -/

@[simp] theorem State.commit_cfg (s : State) (e : Effects) : (s.commit e).cfg = s.cfg := by simp [State.commit]
@[simp] theorem State.commit_prog (s : State) (e : Effects) : (s.commit e).prog = s.prog := by simp [State.commit]
@[simp] theorem State.commit_pc (s : State) (e : Effects) : (s.commit e).pc = s.pc := by simp [State.commit]
@[simp] theorem State.commit_runState (s : State) (e : Effects) : (s.commit e).runState = s.runState := by
  simp [State.commit]
@[simp] theorem State.commit_fault (s : State) (e : Effects) : (s.commit e).fault = s.fault := by simp [State.commit]
@[simp] theorem State.commit_icount (s : State) (e : Effects) : (s.commit e).icount = s.icount + 1 := by
  simp [State.commit]
@[simp] theorem State.commit_gpr (s : State) (e : Effects) : (s.commit e).gpr = (s.commitRegs e.regs).gpr := by
  simp [State.commit]
@[simp] theorem State.commit_mem (s : State) (e : Effects) : (s.commit e).mem = (s.commitMem e.mem).mem := by
  rcases hm : e.mem with _ | ⟨a, v⟩ <;> simp [State.commit, hm]
@[simp] theorem State.commit_stack (s : State) (e : Effects) : (s.commit e).stack = (s.commitStack e.stack).stack := by
  rcases hm : e.stack with _ | _ | _ <;> simp [State.commit, hm]
@[simp] theorem State.commit_output (s : State) (e : Effects) : (s.commit e).output = (s.commitOutput e.out).output := by
  rcases hm : e.out with _ | _ <;> simp [State.commit, hm]
@[simp] theorem State.commit_input (s : State) (e : Effects) :
    (s.commit e).input = (s.consumeInput e.consumes).input := by
  rcases hm : e.consumes <;> simp [State.commit, hm]

theorem State.commit_readReg (s : State) (e : Effects) (r : RegIdx) :
    (s.commit e).readReg r = (s.commitRegs e.regs).readReg r :=
  State.readReg_congr (by simp) (by simp) r

@[simp] theorem State.advance_pc (s : State) (t : Option Word) : (s.advance t).pc = t.getD (addWord s.pc 1) := rfl
@[simp] theorem State.advance_runState (s : State) (t : Option Word) :
    (s.advance t).runState = if (t.getD (addWord s.pc 1)).toNat = s.progLength then .halted else s.runState := rfl
@[simp] theorem State.advance_cfg (s : State) (t : Option Word) : (s.advance t).cfg = s.cfg := rfl
@[simp] theorem State.advance_prog (s : State) (t : Option Word) : (s.advance t).prog = s.prog := rfl
@[simp] theorem State.advance_gpr (s : State) (t : Option Word) : (s.advance t).gpr = s.gpr := rfl
@[simp] theorem State.advance_mem (s : State) (t : Option Word) : (s.advance t).mem = s.mem := rfl
@[simp] theorem State.advance_stack (s : State) (t : Option Word) : (s.advance t).stack = s.stack := rfl
@[simp] theorem State.advance_fault (s : State) (t : Option Word) : (s.advance t).fault = s.fault := rfl
@[simp] theorem State.advance_icount (s : State) (t : Option Word) : (s.advance t).icount = s.icount := rfl
@[simp] theorem State.advance_input (s : State) (t : Option Word) : (s.advance t).input = s.input := rfl
@[simp] theorem State.advance_output (s : State) (t : Option Word) : (s.advance t).output = s.output := rfl

theorem State.advance_readReg (s : State) (t : Option Word) {r : RegIdx} (hr : r ≠ 1) :
    (s.advance t).readReg r = s.readReg r :=
  State.readReg_congr_gpr (s := s) (t := s.advance t) rfl hr

@[simp] theorem State.takeFault_runState (s : State) (k : FaultKind) (d : Decoded) :
    (s.takeFault k d).runState = .faulted := rfl
@[simp] theorem State.takeFault_fault (s : State) (k : FaultKind) (d : Decoded) :
    (s.takeFault k d).fault = some ⟨k, s.pc, d.family, d.opcode, d.f⟩ := rfl
@[simp] theorem State.takeFault_cfg (s : State) (k : FaultKind) (d : Decoded) : (s.takeFault k d).cfg = s.cfg := rfl
@[simp] theorem State.takeFault_prog (s : State) (k : FaultKind) (d : Decoded) : (s.takeFault k d).prog = s.prog := rfl
@[simp] theorem State.takeFault_gpr (s : State) (k : FaultKind) (d : Decoded) : (s.takeFault k d).gpr = s.gpr := rfl
@[simp] theorem State.takeFault_pc (s : State) (k : FaultKind) (d : Decoded) : (s.takeFault k d).pc = s.pc := rfl
@[simp] theorem State.takeFault_mem (s : State) (k : FaultKind) (d : Decoded) : (s.takeFault k d).mem = s.mem := rfl
@[simp] theorem State.takeFault_stack (s : State) (k : FaultKind) (d : Decoded) : (s.takeFault k d).stack = s.stack := rfl
@[simp] theorem State.takeFault_icount (s : State) (k : FaultKind) (d : Decoded) : (s.takeFault k d).icount = s.icount := rfl
@[simp] theorem State.takeFault_input (s : State) (k : FaultKind) (d : Decoded) : (s.takeFault k d).input = s.input := rfl
@[simp] theorem State.takeFault_output (s : State) (k : FaultKind) (d : Decoded) : (s.takeFault k d).output = s.output := rfl

theorem State.takeFault_readReg (s : State) (k : FaultKind) (d : Decoded) (r : RegIdx) :
    (s.takeFault k d).readReg r = s.readReg r := rfl

@[simp] theorem State.supplyInput_input (s : State) (xs : List InputItem) : (s.supplyInput xs).input = s.input ++ xs := rfl
@[simp] theorem State.supplyInput_cfg (s : State) (xs : List InputItem) : (s.supplyInput xs).cfg = s.cfg := rfl
@[simp] theorem State.supplyInput_prog (s : State) (xs : List InputItem) : (s.supplyInput xs).prog = s.prog := rfl
@[simp] theorem State.supplyInput_gpr (s : State) (xs : List InputItem) : (s.supplyInput xs).gpr = s.gpr := rfl
@[simp] theorem State.supplyInput_pc (s : State) (xs : List InputItem) : (s.supplyInput xs).pc = s.pc := rfl
@[simp] theorem State.supplyInput_mem (s : State) (xs : List InputItem) : (s.supplyInput xs).mem = s.mem := rfl
@[simp] theorem State.supplyInput_stack (s : State) (xs : List InputItem) : (s.supplyInput xs).stack = s.stack := rfl
@[simp] theorem State.supplyInput_runState (s : State) (xs : List InputItem) : (s.supplyInput xs).runState = s.runState := rfl
@[simp] theorem State.supplyInput_fault (s : State) (xs : List InputItem) : (s.supplyInput xs).fault = s.fault := rfl
@[simp] theorem State.supplyInput_icount (s : State) (xs : List InputItem) : (s.supplyInput xs).icount = s.icount := rfl
@[simp] theorem State.supplyInput_output (s : State) (xs : List InputItem) : (s.supplyInput xs).output = s.output := rfl

theorem State.supplyInput_readReg (s : State) (xs : List InputItem) (r : RegIdx) :
    (s.supplyInput xs).readReg r = s.readReg r := rfl

end Sys2Proof.Machine
end

