-- ==== Sys2Proof/Laws/Engine.lean ====
section
/-!
SUPPORT. What one instruction and one step can do, said once: every instruction is `runInstr` over its own execution, and
`runInstr` faults on the guard, faults in EXECUTE, waits, or commits and advances.
-/

namespace Sys2Proof.Machine

/-- The execution each instruction's meaning hands to `runInstr`. -/
def executionOf (i : Instr) : State → Execution :=
  match i with
  | .nop => fun _ => .stage {}
  | .ret => popJump
  | .print a => emitReg a
  | .read d => readItem d
  | .lt d a b => regReg ltWord d a b
  | .gt d a b => regReg gtWord d a b
  | .eq d a b => regReg eqWord d a b
  | .ge d a b => regReg geWord d a b
  | .le d a b => regReg leWord d a b
  | .li d imm => fun _ => stageReg d imm
  | .jmp b imm => fun u => stageJump (u.jumpTarget b imm)
  | .call b imm => pushJump b imm
  | .st f0 f1 imm => storeCell f0 f1 imm
  | .ld d b imm => loadCell d b imm
  | .addi d a imm => regImm addWord d a imm
  | .subi d a imm => regImm subWord d a imm
  | .muli d a imm => regImm mulWord d a imm
  | .divi d a imm => divideImm d a imm
  | .shri d a imm => regImm shrWord d a imm
  | .shli d a imm => regImm shlWord d a imm
  | .andi d a imm => regImm andWord d a imm
  | .ori d a imm => regImm orWord d a imm
  | .xori d a imm => regImm xorWord d a imm
  | .lti d a imm => regImm ltWord d a imm
  | .gti d a imm => regImm gtWord d a imm
  | .eqi d a imm => regImm eqWord d a imm
  | .jgtz c b imm => jumpIfPositive c b imm
  | .div q r s1 s2 s3 s4 => divideChain q r s1 s2 s3 s4
  | .mul d _ s1 s2 s3 s4 => regChain mulWord d s1 s2 s3 s4
  | .add d _ s1 s2 s3 s4 => regChain addWord d s1 s2 s3 s4
  | .sub d _ s1 s2 s3 s4 => regChain subWord d s1 s2 s3 s4
  | .and d _ s1 s2 s3 s4 => regChain andWord d s1 s2 s3 s4
  | .or d _ s1 s2 s3 s4 => regChain orWord d s1 s2 s3 s4
  | .xor d _ s1 s2 s3 s4 => regChain xorWord d s1 s2 s3 s4
  | .shuf src0 src1 src2 dst0 dst1 dst2 => shuffle src0 src1 src2 dst0 dst1 dst2

/-- Every instruction runs through the shared step. -/
theorem exec_eq_runInstr (i : Instr) (s : State) : exec i s = runInstr i (executionOf i) s := by
  cases i <;> rfl

/-! ### The shared step, case by case -/

/-- The write guard of an instruction does not fire. -/
abbrev GuardPasses (i : Instr) : Prop := ∀ d ∈ destinations i, d ≠ 0 ∧ d ≠ 1

theorem guardPasses_iff (i : Instr) : (destinations i).any isGuarded = false ↔ GuardPasses i := by
  simp [GuardPasses, isGuarded]

theorem runInstr_guarded {i : Instr} {ex : State → Execution} {s : State}
    (h : (destinations i).any isGuarded = true) :
    runInstr i ex s = .next (s.takeFault .illegalRegisterWrite i.toDecoded) := by
  unfold runInstr; rw [if_pos h]

theorem runInstr_stage {i : Instr} {ex : State → Execution} {s : State} {e : Effects}
    (h : GuardPasses i) (he : ex s = .stage e) : runInstr i ex s = .next ((s.commit e).advance e.target) := by
  unfold runInstr; rw [if_neg (by simp [(guardPasses_iff i).2 h]), he]

theorem runInstr_raise {i : Instr} {ex : State → Execution} {s : State} {k : FaultKind} {c : Bool}
    (h : GuardPasses i) (he : ex s = .raise k c) :
    runInstr i ex s = .next ((s.consumeInput c).takeFault k i.toDecoded) := by
  unfold runInstr; rw [if_neg (by simp [(guardPasses_iff i).2 h]), he]

theorem runInstr_wait {i : Instr} {ex : State → Execution} {s : State}
    (h : GuardPasses i) (he : ex s = .wait) : runInstr i ex s = .next s := by
  unfold runInstr; rw [if_neg (by simp [(guardPasses_iff i).2 h]), he]

/-- The four things one instruction can do. -/
inductive Ran (i : Instr) (s : State) : State → Prop where
  /-- The guard's fault. -/
  | guarded (h : (destinations i).any isGuarded = true) :
      Ran i s (s.takeFault .illegalRegisterWrite i.toDecoded)
  /-- A fault of EXECUTE. -/
  | raised (k : FaultKind) (c : Bool) (h : GuardPasses i) (he : executionOf i s = .raise k c) :
      Ran i s ((s.consumeInput c).takeFault k i.toDecoded)
  /-- Waiting for input. -/
  | waited (h : GuardPasses i) (he : executionOf i s = .wait) : Ran i s s
  /-- COMMIT and ADVANCE. -/
  | committed (e : Effects) (h : GuardPasses i) (he : executionOf i s = .stage e) :
      Ran i s ((s.commit e).advance e.target)

/-- Every instruction answers a next state, and it is one of the four. -/
theorem exec_ran (i : Instr) (s : State) : ∃ t, exec i s = .next t ∧ Ran i s t := by
  rw [exec_eq_runInstr]
  by_cases h : (destinations i).any isGuarded = true
  · exact ⟨_, runInstr_guarded h, .guarded h⟩
  · have hp := (guardPasses_iff i).1 (Bool.not_eq_true _ ▸ h)
    rcases he : executionOf i s with e | ⟨k, c⟩ | _
    · exact ⟨_, runInstr_stage hp he, .committed e hp he⟩
    · exact ⟨_, runInstr_raise hp he, .raised k c hp he⟩
    · exact ⟨_, runInstr_wait hp he, .waited hp he⟩

/-- The same, read from an answer. -/
theorem ran_of_exec {i : Instr} {s t : State} (h : exec i s = .next t) : Ran i s t := by
  obtain ⟨u, hu, hr⟩ := exec_ran i s
  rw [h] at hu
  cases hu
  exact hr

/-! ### The executions -/

/-- The writes of SHUF name the destinations of its slots, in order. -/
theorem shufWrites_fst (s : State) (slots : List (RegIdx × RegIdx)) :
    (s.shufWrites slots).map Prod.fst = slots.map Prod.snd := by
  have key : ∀ (ws : List (RegIdx × Word)),
      (slots.foldl (fun ws p => ws ++ [(p.2, s.readStaged ws p.1)]) ws).map Prod.fst
        = ws.map Prod.fst ++ slots.map Prod.snd := by
    induction slots with
    | nil => intro ws; simp
    | cons p ps ih => intro ws; rw [List.foldl_cons, ih]; simp
  simpa [State.shufWrites] using key []

/-- The staged register writes of an instruction name exactly its destination set (40_engine.md R125, R128). -/
theorem staged_regs_eq_destinations {i : Instr} {s : State} {e : Effects} (h : executionOf i s = .stage e) :
    e.regs.map Prod.fst = destinations i := by
  cases i <;>
    simp only [executionOf, popJump, emitReg, readItem, regReg, regImm, regChain, stageReg, stageJump, pushJump,
      storeCell, loadCell, divideImm, jumpIfPositive, divideChain, shuffle] at h <;>
    (repeat' (first | split at h | cases h)) <;>
    first | rfl | exact shufWrites_fst _ _

/-! ### One step -/

/-- The front end of a running step, from what FETCH and DECODE answer. -/
theorem frontEnd_run {s : State} {w : InstrWord} {i : Instr} (hr : s.runState = .running)
    (hw : s.fetchWord = some w) (hd : decode w = .instr i) : s.frontEnd = .run i := by
  simp [State.frontEnd, hr, hw, hd]

/-- Every step is idle, traps in FETCH, DECODE or DISPATCH, or runs one decoded instruction. -/
theorem step_cases (s : State) :
    (s.runState ≠ .running ∧ step s = .next s) ∨
    (s.runState = .running ∧ s.fetchWord = none ∧ step s = .next (s.takeFault .fetchOutOfRange Decoded.zero)) ∨
    (∃ w d, s.runState = .running ∧ s.fetchWord = some w ∧ (∀ i, decode w ≠ .instr i) ∧
      step s = .next (s.takeFault .unknownFamilyOrOpcode d)) ∨
    (∃ w i, s.runState = .running ∧ s.fetchWord = some w ∧ decode w = .instr i ∧ step s = exec i s) := by
  rcases hr : s.runState
  case halted => exact .inl ⟨by simp, by simp [step, State.frontEnd, hr]⟩
  case faulted => exact .inl ⟨by simp, by simp [step, State.frontEnd, hr]⟩
  case running =>
    rcases hw : s.fetchWord with _ | w
    · exact .inr (.inl ⟨rfl, rfl, by simp [step, State.frontEnd, hr, hw]⟩)
    · rcases hd : decode w with i | ⟨fam, opc⟩ | d
      · exact .inr (.inr (.inr ⟨w, i, rfl, rfl, hd, by simp [step, State.frontEnd, hr, hw, hd]⟩))
      · exact .inr (.inr (.inl ⟨w, ⟨fam, opc, Fields.zero⟩, rfl, rfl, by simp [hd],
          by simp [step, State.frontEnd, hr, hw, hd]⟩))
      · exact .inr (.inr (.inl ⟨w, d, rfl, rfl, by simp [hd], by simp [step, State.frontEnd, hr, hw, hd]⟩))

end Sys2Proof.Machine
end

