-- ==== Sys2Proof/Laws/Memory.lean ====
section
/-!
SUPPORT. The memory array: a read after a write, and the canonical form every write keeps.
-/

namespace Sys2Proof.Machine

@[simp] theorem Memory.read_nil (a : Nat) : Memory.read [] a = 0 := rfl

@[simp] theorem Memory.read_cons (c : Cell) (m : Memory) (a : Nat) :
    Memory.read (c :: m) a = if c.1 = a then c.2 else Memory.read m a := rfl

@[simp] theorem Memory.wf_nil : Memory.wf [] := by simp [Memory.wf]

/-- The canonical form, read off at the head. -/
theorem Memory.wf_cons (c : Cell) (m : Memory) :
    Memory.wf (c :: m) ↔ (∀ e ∈ m, c.1 < e.1) ∧ c.2 ≠ 0 ∧ Memory.wf m := by
  simp only [Memory.wf, List.pairwise_cons, List.forall_mem_cons]
  tauto

/-! ### Unlisting a cell -/

@[simp] theorem Memory.mem_unlist {m : Memory} {a : Nat} {e : Cell} : e ∈ m.unlist a ↔ e ∈ m ∧ e.1 ≠ a := by
  simp [Memory.unlist]

theorem Memory.wf_unlist {m : Memory} (h : m.wf) (a : Nat) : (m.unlist a).wf :=
  ⟨h.1.filter _, fun c hc => h.2 c (Memory.mem_unlist.1 hc).1⟩

theorem Memory.read_unlist (m : Memory) (a b : Nat) :
    (m.unlist a).read b = if b = a then 0 else m.read b := by
  induction m with
  | nil => simp [Memory.unlist]
  | cons c cs ih =>
    by_cases hc : c.1 = a
    · have hu : Memory.unlist (c :: cs) a = Memory.unlist cs a := by simp [Memory.unlist, hc]
      rw [hu, ih, Memory.read_cons]
      by_cases hb : b = a
      · simp [hb]
      · rw [if_neg hb, if_neg hb, if_neg (by omega)]
    · have hu : Memory.unlist (c :: cs) a = c :: Memory.unlist cs a := by simp [Memory.unlist, hc]
      rw [hu, Memory.read_cons, Memory.read_cons, ih]
      by_cases hb : c.1 = b
      · rw [if_pos hb, if_pos hb, if_neg (by omega)]
      · rw [if_neg hb, if_neg hb]

/-! ### Listing a cell -/

theorem Memory.mem_list {m : Memory} {a : Nat} {v : Word} {e : Cell} : e ∈ m.list a v ↔ e = (a, v) ∨ e ∈ m := by
  induction m with
  | nil => simp [Memory.list]
  | cons c cs ih =>
    unfold Memory.list
    split
    · simp
    · simp only [List.mem_cons, ih]; tauto

theorem Memory.wf_list {m : Memory} {a : Nat} {v : Word} (h : m.wf) (ha : ∀ e ∈ m, e.1 ≠ a) (hv : v ≠ 0) :
    (m.list a v).wf := by
  induction m with
  | nil => exact (Memory.wf_cons _ _).2 ⟨by simp, hv, Memory.wf_nil⟩
  | cons c cs ih =>
    obtain ⟨hlt, hc, hcs⟩ := (Memory.wf_cons _ _).1 h
    have hca : c.1 ≠ a := ha c (by simp)
    unfold Memory.list
    split
    · rename_i hac
      refine (Memory.wf_cons _ _).2 ⟨fun e he => ?_, hv, h⟩
      rcases List.mem_cons.1 he with rfl | he
      · exact hac
      · exact lt_trans hac (hlt e he)
    · refine (Memory.wf_cons _ _).2 ⟨fun e he => ?_, hc, ih hcs fun e he => ha e (by simp [he])⟩
      rcases Memory.mem_list.1 he with rfl | he
      · simp only; omega
      · exact hlt e he

theorem Memory.read_list {m : Memory} {a : Nat} (v : Word) (ha : ∀ e ∈ m, e.1 ≠ a) (b : Nat) :
    (m.list a v).read b = if b = a then v else m.read b := by
  induction m with
  | nil => simp [Memory.list, eq_comm]
  | cons c cs ih =>
    have hca : c.1 ≠ a := ha c (by simp)
    unfold Memory.list
    split
    · simp only [Memory.read_cons, eq_comm]
    · rw [Memory.read_cons, Memory.read_cons, ih fun e he => ha e (by simp [he])]
      by_cases hb : c.1 = b
      · rw [if_pos hb, if_pos hb, if_neg (by omega)]
      · rw [if_neg hb, if_neg hb]

/-! ### Writing a cell -/

/-- A listed cell after a write is the written one or was listed before. -/
theorem Memory.mem_write {m : Memory} {a : Nat} {v : Word} {e : Cell} (h : e ∈ m.write a v) :
    e = (a, v) ∨ e ∈ m := by
  unfold Memory.write at h
  split at h
  · exact .inr (Memory.mem_unlist.1 h).1
  · exact (Memory.mem_list.1 h).imp_right fun h => (Memory.mem_unlist.1 h).1

/-- Every write keeps the canonical form. -/
theorem Memory.wf_write {m : Memory} (h : m.wf) (a : Nat) (v : Word) : (m.write a v).wf := by
  unfold Memory.write
  split
  · exact Memory.wf_unlist h a
  · rename_i hv
    exact Memory.wf_list (Memory.wf_unlist h a) (fun e he => (Memory.mem_unlist.1 he).2) hv

/-- A read after a write: the written value there, every other cell as before. -/
theorem Memory.read_write (m : Memory) (a : Nat) (v : Word) (b : Nat) :
    (m.write a v).read b = if b = a then v else m.read b := by
  unfold Memory.write
  split
  · rename_i hv; rw [Memory.read_unlist, hv]; rfl
  · rw [Memory.read_list v (fun e he => (Memory.mem_unlist.1 he).2) b, Memory.read_unlist]
    split <;> rfl

end Sys2Proof.Machine
end

