-- ==== Sys2Proof/Laws/PerInstr.lean ====
section
/-!
SUPPORT. The per-instruction family `WellFormed`: an instruction's tuple fits its Layout Table row, and the Operation
Matrix gives the instruction back.
-/

namespace Sys2Proof.Laws

/-- The tuple of the instruction is well-formed (30_encoding.md R88) and its Operation Matrix row is the instruction. -/
def WellFormed.Statement (i : Instr) : Prop :=
  i.toDecoded.wellFormed = true ∧ operationMatrix i.toDecoded = some i

/-- A register index survives its operand field. -/
@[simp] theorem reg_field (r : RegIdx) : reg (field r) = r := by
  apply BitVec.eq_of_toNat_eq
  simp [reg, field]

@[simp] theorem field_toNat (r : RegIdx) : (field r).toNat = r.toNat := by
  have := r.isLt
  simp only [field, BitVec.toNat_setWidth]
  omega

theorem toNat_lt_256 (r : RegIdx) : r.toNat < 256 := r.isLt

/-- A Layout Table row of three register fields and the rest unused, and so on: each shape of field list fits. -/
theorem fits1 (a : RegIdx) : fieldsFit [8] [field a, 0, 0, 0, 0, 0] = true := by
  simp [fieldsFit, toNat_lt_256]

theorem fits3 (a b c : RegIdx) : fieldsFit [8, 8, 8] [field a, field b, field c, 0, 0, 0] = true := by
  simp [fieldsFit, toNat_lt_256]

theorem fits2imm (a : RegIdx) (imm : Word) : fieldsFit [8, 32] [field a, imm, 0, 0, 0, 0] = true := by
  simp [fieldsFit, toNat_lt_256, imm.isLt]

theorem fits3imm (a b : RegIdx) (imm : Word) :
    fieldsFit [8, 8, 32] [field a, field b, imm, 0, 0, 0] = true := by
  simp [fieldsFit, toNat_lt_256, imm.isLt]

theorem fits6 (a b c d e g : RegIdx) :
    fieldsFit [8, 8, 8, 8, 8, 8] [field a, field b, field c, field d, field e, field g] = true := by
  simp [fieldsFit, toNat_lt_256]

theorem WellFormed.nop : WellFormed.Statement .nop := ⟨rfl, rfl⟩
theorem WellFormed.ret : WellFormed.Statement .ret := ⟨rfl, rfl⟩
theorem WellFormed.print (a : RegIdx) : WellFormed.Statement (.print a) :=
  ⟨fits1 .., by simp [operationMatrix, matrixFamily1, Instr.toDecoded]⟩
theorem WellFormed.read (d : RegIdx) : WellFormed.Statement (.read d) :=
  ⟨fits1 .., by simp [operationMatrix, matrixFamily1, Instr.toDecoded]⟩
theorem WellFormed.lt (d a b : RegIdx) : WellFormed.Statement (.lt d a b) :=
  ⟨fits3 .., by simp [operationMatrix, matrixFamily2, Instr.toDecoded]⟩
theorem WellFormed.gt (d a b : RegIdx) : WellFormed.Statement (.gt d a b) :=
  ⟨fits3 .., by simp [operationMatrix, matrixFamily2, Instr.toDecoded]⟩
theorem WellFormed.eq (d a b : RegIdx) : WellFormed.Statement (.eq d a b) :=
  ⟨fits3 .., by simp [operationMatrix, matrixFamily2, Instr.toDecoded]⟩
theorem WellFormed.ge (d a b : RegIdx) : WellFormed.Statement (.ge d a b) :=
  ⟨fits3 .., by simp [operationMatrix, matrixFamily2, Instr.toDecoded]⟩
theorem WellFormed.le (d a b : RegIdx) : WellFormed.Statement (.le d a b) :=
  ⟨fits3 .., by simp [operationMatrix, matrixFamily2, Instr.toDecoded]⟩
theorem WellFormed.li (d : RegIdx) (imm : Word) : WellFormed.Statement (.li d imm) :=
  ⟨fits2imm .., by simp [operationMatrix, matrixFamily3, Instr.toDecoded]⟩
theorem WellFormed.jmp (b : RegIdx) (imm : Word) : WellFormed.Statement (.jmp b imm) :=
  ⟨fits2imm .., by simp [operationMatrix, matrixFamily3, Instr.toDecoded]⟩
theorem WellFormed.call (b : RegIdx) (imm : Word) : WellFormed.Statement (.call b imm) :=
  ⟨fits2imm .., by simp [operationMatrix, matrixFamily3, Instr.toDecoded]⟩
theorem WellFormed.st (f0 f1 : RegIdx) (imm : Word) : WellFormed.Statement (.st f0 f1 imm) :=
  ⟨fits3imm .., by simp [operationMatrix, matrixFamily4, Instr.toDecoded]⟩
theorem WellFormed.ld (d b : RegIdx) (imm : Word) : WellFormed.Statement (.ld d b imm) :=
  ⟨fits3imm .., by simp [operationMatrix, matrixFamily4, Instr.toDecoded]⟩
theorem WellFormed.addi (d a : RegIdx) (imm : Word) : WellFormed.Statement (.addi d a imm) :=
  ⟨fits3imm .., by simp [operationMatrix, matrixFamily4, Instr.toDecoded]⟩
theorem WellFormed.subi (d a : RegIdx) (imm : Word) : WellFormed.Statement (.subi d a imm) :=
  ⟨fits3imm .., by simp [operationMatrix, matrixFamily4, Instr.toDecoded]⟩
theorem WellFormed.muli (d a : RegIdx) (imm : Word) : WellFormed.Statement (.muli d a imm) :=
  ⟨fits3imm .., by simp [operationMatrix, matrixFamily4, Instr.toDecoded]⟩
theorem WellFormed.divi (d a : RegIdx) (imm : Word) : WellFormed.Statement (.divi d a imm) :=
  ⟨fits3imm .., by simp [operationMatrix, matrixFamily4, Instr.toDecoded]⟩
theorem WellFormed.shri (d a : RegIdx) (imm : Word) : WellFormed.Statement (.shri d a imm) :=
  ⟨fits3imm .., by simp [operationMatrix, matrixFamily4, Instr.toDecoded]⟩
theorem WellFormed.shli (d a : RegIdx) (imm : Word) : WellFormed.Statement (.shli d a imm) :=
  ⟨fits3imm .., by simp [operationMatrix, matrixFamily4, Instr.toDecoded]⟩
theorem WellFormed.andi (d a : RegIdx) (imm : Word) : WellFormed.Statement (.andi d a imm) :=
  ⟨fits3imm .., by simp [operationMatrix, matrixFamily4, Instr.toDecoded]⟩
theorem WellFormed.ori (d a : RegIdx) (imm : Word) : WellFormed.Statement (.ori d a imm) :=
  ⟨fits3imm .., by simp [operationMatrix, matrixFamily4, Instr.toDecoded]⟩
theorem WellFormed.xori (d a : RegIdx) (imm : Word) : WellFormed.Statement (.xori d a imm) :=
  ⟨fits3imm .., by simp [operationMatrix, matrixFamily4, Instr.toDecoded]⟩
theorem WellFormed.lti (d a : RegIdx) (imm : Word) : WellFormed.Statement (.lti d a imm) :=
  ⟨fits3imm .., by simp [operationMatrix, matrixFamily4, Instr.toDecoded]⟩
theorem WellFormed.gti (d a : RegIdx) (imm : Word) : WellFormed.Statement (.gti d a imm) :=
  ⟨fits3imm .., by simp [operationMatrix, matrixFamily4, Instr.toDecoded]⟩
theorem WellFormed.eqi (d a : RegIdx) (imm : Word) : WellFormed.Statement (.eqi d a imm) :=
  ⟨fits3imm .., by simp [operationMatrix, matrixFamily4, Instr.toDecoded]⟩
theorem WellFormed.jgtz (c b : RegIdx) (imm : Word) : WellFormed.Statement (.jgtz c b imm) :=
  ⟨fits3imm .., by simp [operationMatrix, matrixFamily4, Instr.toDecoded]⟩
theorem WellFormed.div (q r s1 s2 s3 s4 : RegIdx) : WellFormed.Statement (.div q r s1 s2 s3 s4) :=
  ⟨fits6 .., by simp [operationMatrix, matrixFamily5, Instr.toDecoded]⟩
theorem WellFormed.mul (d e s1 s2 s3 s4 : RegIdx) : WellFormed.Statement (.mul d e s1 s2 s3 s4) :=
  ⟨fits6 .., by simp [operationMatrix, matrixFamily5, Instr.toDecoded]⟩
theorem WellFormed.add (d e s1 s2 s3 s4 : RegIdx) : WellFormed.Statement (.add d e s1 s2 s3 s4) :=
  ⟨fits6 .., by simp [operationMatrix, matrixFamily5, Instr.toDecoded]⟩
theorem WellFormed.sub (d e s1 s2 s3 s4 : RegIdx) : WellFormed.Statement (.sub d e s1 s2 s3 s4) :=
  ⟨fits6 .., by simp [operationMatrix, matrixFamily5, Instr.toDecoded]⟩
theorem WellFormed.and (d e s1 s2 s3 s4 : RegIdx) : WellFormed.Statement (.and d e s1 s2 s3 s4) :=
  ⟨fits6 .., by simp [operationMatrix, matrixFamily5, Instr.toDecoded]⟩
theorem WellFormed.or (d e s1 s2 s3 s4 : RegIdx) : WellFormed.Statement (.or d e s1 s2 s3 s4) :=
  ⟨fits6 .., by simp [operationMatrix, matrixFamily5, Instr.toDecoded]⟩
theorem WellFormed.xor (d e s1 s2 s3 s4 : RegIdx) : WellFormed.Statement (.xor d e s1 s2 s3 s4) :=
  ⟨fits6 .., by simp [operationMatrix, matrixFamily5, Instr.toDecoded]⟩
theorem WellFormed.shuf (src0 src1 src2 dst0 dst1 dst2 : RegIdx) : WellFormed.Statement (.shuf src0 src1 src2 dst0 dst1 dst2) :=
  ⟨fits6 .., by simp [operationMatrix, matrixFamily5, Instr.toDecoded]⟩

end Sys2Proof.Laws
end

