-- ==== Sys2Proof/Laws/Run.lean ====
section
/-!
SUPPORT. Runs of several steps, one step at a time: what `Host.Core.run` does with a step that answers a next state.
-/

namespace Sys2Proof.Machine

/-- A machine's run of `n + 1` steps whose first step answers `t` is the run of `n` steps from `t`. -/
theorem run_succ_of_next (M : Host.Core) {s t : M.State} (h : M.step s = .next t) (n : Nat) :
    M.run (n + 1) s = M.run n t := by
  simp only [Host.Core.run, h]

/-- The same for the core. -/
theorem core_run_succ {s t : State} (h : step s = .next t) (n : Nat) :
    Host.Core.run Sys2Proof.core (n + 1) s = Host.Core.run Sys2Proof.core n t :=
  run_succ_of_next Sys2Proof.core h n

/-- A state that a step leaves as it is stays for any number of steps. -/
theorem core_run_of_fixed {s : State} (h : step s = .next s) (n : Nat) :
    Host.Core.run Sys2Proof.core n s = Host.Outcome.next s := by
  induction n with
  | zero => rfl
  | succ n ih => exact (core_run_succ h n).trans ih

end Sys2Proof.Machine
end

