-- ==== Sys2Proof/Tests/Slice0.lean ====
section
/-!
SUPPORT. The model's own tests: the well-formedness smoke tests, a decoded word for every constructor, single steps with
the expected results of 95_test_vectors.md, and a witness for the hypotheses of every statement that has some.
-/

namespace Sys2Proof.Tests

open Sys2Proof.Machine

set_option maxRecDepth 100000

/-! ### Helpers -/

/-- The convention of 95_test_vectors.md: N = 16, MEM_SIZE = 16, STACK_DEPTH = 4, the word under test at index `p`. -/
def load (word : InstrWord) (p : Word) (regs : List (RegIdx × Word)) : State :=
  ({ State.create Config.atReset ((List.replicate 16 (0 : InstrWord)).set p.toNat word) [] with
    pc := p }).commitRegs regs

/-- One step, and a check of the next state. -/
def after (s : State) (check : State → Bool) : Bool :=
  match step s with
  | .next t => check t
  | .fault _ => false
  | .refused _ => false

/-- An ill-formed configuration: MEM_SIZE one above 2^32. -/
def tooMuchMemory : Config := { Config.atReset with memSize := 4294967297 }

/-- An ill-formed configuration: STACK_DEPTH 0. -/
def noStack : Config := { Config.atReset with stackDepth := .finite 0 }

/-! ### WellFormed: each check refuses an ill-formed term -/

theorem test_wellFormed_refuses_memory_above_2_32 : tooMuchMemory.wellFormed = false := by decide

theorem test_wellFormed_refuses_stack_of_no_entry : noStack.wellFormed = false := by decide

theorem test_wellFormed_accepts_the_largest_memory :
    ({ Config.atReset with memSize := 4294967296, stackDepth := .unbounded } : Config).wellFormed = true := by decide

/-- N = 2^32 is one word too many. -/
theorem test_wellFormed_refuses_program_of_2_32_words :
    programWellFormed (List.replicate 4294967296 0) = false := by
  unfold programWellFormed; rw [List.length_replicate]; decide

/-- f[0] of family 2 has 8 bits. -/
theorem test_wellFormed_refuses_wide_field : Decoded.wellFormed ⟨2, 0, ⟨256, 0, 0, 0, 0, 0⟩⟩ = false := by decide

/-- Family 3 declares two fields; a third must be the sentinel 0. -/
theorem test_wellFormed_refuses_used_sentinel : Decoded.wellFormed ⟨3, 0, ⟨1, 2, 3, 0, 0, 0⟩⟩ = false := by decide

theorem test_wellFormed_refuses_family_6 : Decoded.wellFormed ⟨6, 0, Fields.zero⟩ = false := by decide

/-- The Operation Matrix has no row (4, 15): no `Instr` stands for it. -/
theorem test_operationMatrix_refuses_opcode_15 : operationMatrix ⟨4, 15, ⟨2, 3, 4, 0, 0, 0⟩⟩ = none := by decide

/-- Memory's canonical form refuses a listed zero, a repeated address and addresses out of order. -/
theorem test_memory_wf_refuses :
    ¬ Memory.wf [(3, 0)] ∧ ¬ Memory.wf [(3, 1), (3, 2)] ∧ ¬ Memory.wf [(4, 1), (3, 2)] := by decide

/-! ### The host's windows -/

theorem test_decodeTableWord : decodeTableWord 16 0x0100 = some .ret ∧ decodeTableWord 64 0x0000000403020F04 = none ∧
    decodeTableWord 72 0x010000000000000000 = none := by decide

/-- From State.reset, which has no program: the very next step runs the word (ADDI r3, r0, 7). -/
theorem test_withFetchWord_runs_the_word : after (State.reset.withFetchWord 64 0x0000000700030204)
    (fun t => t.readReg 3 == 7 && t.pc == 1 && t.icount == 1) = true := by decide

theorem test_reset_has_the_invariant : State.reset.Inv :=
  ⟨by decide, by decide, by decide, by decide, by decide, fun _ h => (List.not_mem_nil h).elim, by decide, by decide,
    by decide, by decide⟩

/-! ### Decoding: a word of 95_test_vectors.md for every constructor, and its encoding -/

/-- T0.1 `NOP`. -/
theorem test_decode_nop : decode 0x0000000000000000 = .instr .nop ∧ encode .nop = 0x0000000000000000 := by decide

/-- T0.3 `RET`. -/
theorem test_decode_ret : decode 0x0000000000000100 = .instr .ret ∧ encode .ret = 0x0000000000000100 := by decide

/-- T1.1 `PRINT r4`. -/
theorem test_decode_print :
    decode 0x0000000000040001 = .instr (.print 4) ∧ encode (.print 4) = 0x0000000000040001 := by decide

/-- T1.5 `READ r2`. -/
theorem test_decode_read :
    decode 0x0000000000020101 = .instr (.read 2) ∧ encode (.read 2) = 0x0000000000020101 := by decide

/-- T2.1 `LT r4, r2, r3`. -/
theorem test_decode_lt :
    decode 0x0000000302040002 = .instr (.lt 4 2 3) ∧ encode (.lt 4 2 3) = 0x0000000302040002 := by decide

/-- T2.4 `GT r4, r2, r3`. -/
theorem test_decode_gt :
    decode 0x0000000302040102 = .instr (.gt 4 2 3) ∧ encode (.gt 4 2 3) = 0x0000000302040102 := by decide

/-- T2.7 `EQ r4, r2, r3`. -/
theorem test_decode_eq :
    decode 0x0000000302040202 = .instr (.eq 4 2 3) ∧ encode (.eq 4 2 3) = 0x0000000302040202 := by decide

/-- T2.10 `GE r4, r2, r3`. -/
theorem test_decode_ge :
    decode 0x0000000302040302 = .instr (.ge 4 2 3) ∧ encode (.ge 4 2 3) = 0x0000000302040302 := by decide

/-- T2.13 `LE r4, r2, r3`. -/
theorem test_decode_le :
    decode 0x0000000302040402 = .instr (.le 4 2 3) ∧ encode (.le 4 2 3) = 0x0000000302040402 := by decide

/-- T3.2 `LI r7, 0xDEADBEEF`. -/
theorem test_decode_li :
    decode 0x00DEADBEEF070003 = .instr (.li 7 0xdeadbeef) ∧
    encode (.li 7 0xdeadbeef) = 0x00DEADBEEF070003 := by decide

/-- T3.7 `JMP r1, -2`. -/
theorem test_decode_jmp :
    decode 0x00FFFFFFFE010103 = .instr (.jmp 1 0xfffffffe) ∧
    encode (.jmp 1 0xfffffffe) = 0x00FFFFFFFE010103 := by decide

/-- T3.14 `CALL r0, 10`. -/
theorem test_decode_call :
    decode 0x000000000A000203 = .instr (.call 0 10) ∧ encode (.call 0 10) = 0x000000000A000203 := by decide

/-- T4.2 `ST r3, r2, 4`. -/
theorem test_decode_st :
    decode 0x0000000402030004 = .instr (.st 3 2 4) ∧ encode (.st 3 2 4) = 0x0000000402030004 := by decide

/-- T4.10 `LD r5, r0, 10`. -/
theorem test_decode_ld :
    decode 0x0000000A00050104 = .instr (.ld 5 0 10) ∧ encode (.ld 5 0 10) = 0x0000000A00050104 := by decide

/-- T4.17 `ADDI r3, r2, -5`. -/
theorem test_decode_addi :
    decode 0xFFFFFFFB02030204 = .instr (.addi 3 2 0xfffffffb) ∧
    encode (.addi 3 2 0xfffffffb) = 0xFFFFFFFB02030204 := by decide

/-- T4.19 `SUBI r2, r2, 1`. -/
theorem test_decode_subi :
    decode 0x0000000102020304 = .instr (.subi 2 2 1) ∧ encode (.subi 2 2 1) = 0x0000000102020304 := by decide

/-- T4.21 `MULI r3, r2, 3`. -/
theorem test_decode_muli :
    decode 0x0000000302030404 = .instr (.muli 3 2 3) ∧ encode (.muli 3 2 3) = 0x0000000302030404 := by decide

/-- T4.24 `DIVI r3, r2, 4`. -/
theorem test_decode_divi :
    decode 0x0000000402030504 = .instr (.divi 3 2 4) ∧ encode (.divi 3 2 4) = 0x0000000402030504 := by decide

/-- T4.28 `SHRI r3, r2, 4`. -/
theorem test_decode_shri :
    decode 0x0000000402030604 = .instr (.shri 3 2 4) ∧ encode (.shri 3 2 4) = 0x0000000402030604 := by decide

/-- T4.32 `SHLI r3, r2, 4`. -/
theorem test_decode_shli :
    decode 0x0000000402030704 = .instr (.shli 3 2 4) ∧ encode (.shli 3 2 4) = 0x0000000402030704 := by decide

/-- T4.35 `ANDI r3, r2, 0xFF`. -/
theorem test_decode_andi :
    decode 0x000000FF02030804 = .instr (.andi 3 2 255) ∧ encode (.andi 3 2 255) = 0x000000FF02030804 := by decide

/-- T4.36 `ORI r3, r2, 0xF0`. -/
theorem test_decode_ori :
    decode 0x000000F002030904 = .instr (.ori 3 2 240) ∧ encode (.ori 3 2 240) = 0x000000F002030904 := by decide

/-- T4.37 `XORI r3, r2, 0xFFFFFFFF`. -/
theorem test_decode_xori :
    decode 0xFFFFFFFF02030A04 = .instr (.xori 3 2 0xffffffff) ∧
    encode (.xori 3 2 0xffffffff) = 0xFFFFFFFF02030A04 := by decide

/-- T4.38 `LTI r3, r2, 10`. -/
theorem test_decode_lti :
    decode 0x0000000A02030B04 = .instr (.lti 3 2 10) ∧ encode (.lti 3 2 10) = 0x0000000A02030B04 := by decide

/-- T4.40 `GTI r3, r2, 10`. -/
theorem test_decode_gti :
    decode 0x0000000A02030C04 = .instr (.gti 3 2 10) ∧ encode (.gti 3 2 10) = 0x0000000A02030C04 := by decide

/-- T4.43 `EQI r3, r2, -1`. -/
theorem test_decode_eqi :
    decode 0xFFFFFFFF02030D04 = .instr (.eqi 3 2 0xffffffff) ∧
    encode (.eqi 3 2 0xffffffff) = 0xFFFFFFFF02030D04 := by decide

/-- T4.44 `JGTZ r2, r1, -2`. -/
theorem test_decode_jgtz :
    decode 0xFFFFFFFE01020E04 = .instr (.jgtz 2 1 0xfffffffe) ∧
    encode (.jgtz 2 1 0xfffffffe) = 0xFFFFFFFE01020E04 := by decide

/-- T5.2 `DIV r4, r5, r2, r3, r6`. -/
theorem test_decode_div :
    decode 0x0006030205040005 = .instr (.div 4 5 2 3 6 0) ∧
    encode (.div 4 5 2 3 6 0) = 0x0006030205040005 := by decide

/-- T5.10 `MUL r6, _, r2, r3, r4`. -/
theorem test_decode_mul :
    decode 0x0004030200060105 = .instr (.mul 6 0 2 3 4 0) ∧
    encode (.mul 6 0 2 3 4 0) = 0x0004030200060105 := by decide

/-- T5.14 `ADD r4, _, r2, r3, r5, r6`. -/
theorem test_decode_add :
    decode 0x0605030200040205 = .instr (.add 4 0 2 3 5 6) ∧
    encode (.add 4 0 2 3 5 6) = 0x0605030200040205 := by decide

/-- T5.19 `SUB r4, _, r2, r3, r5`. -/
theorem test_decode_sub :
    decode 0x0005030200040305 = .instr (.sub 4 0 2 3 5 0) ∧
    encode (.sub 4 0 2 3 5 0) = 0x0005030200040305 := by decide

/-- T5.23 `AND r4, _, r2, r3, r5`. -/
theorem test_decode_and :
    decode 0x0005030200040405 = .instr (.and 4 0 2 3 5 0) ∧
    encode (.and 4 0 2 3 5 0) = 0x0005030200040405 := by decide

/-- T5.24 `OR r4, _, r2, r3`. -/
theorem test_decode_or :
    decode 0x0000030200040505 = .instr (.or 4 0 2 3 0 0) ∧ encode (.or 4 0 2 3 0 0) = 0x0000030200040505 := by decide

/-- T5.26 `XOR r4, _, r2, r3, r2`. -/
theorem test_decode_xor :
    decode 0x0002030200040605 = .instr (.xor 4 0 2 3 2 0) ∧
    encode (.xor 4 0 2 3 2 0) = 0x0002030200040605 := by decide

/-- T5.28 `SHUF r2, r3, _, r3, r2, _`. -/
theorem test_decode_shuf :
    decode 0x0002030003020705 = .instr (.shuf 2 3 0 3 2 0) ∧
    encode (.shuf 2 3 0 3 2 0) = 0x0002030003020705 := by decide

/-! ### One step: vectors of 95_test_vectors.md, at most two for each instruction -/

/-- T0.2 `NOP (ignored bits set)`: R86: w[63:16] ignored. -/
theorem test_step_nop_1 : after (load 0xFFFFFFFFFFFF0000 3 [])
    (fun t => t.pc == 4 && t.icount == 1) = true := by decide

/-- T0.4 `RET`: R31: pops the top (last pushed). -/
theorem test_step_ret_1 : after { load 0x0000000000000100 3 [] with stack := [9, 2] }
    (fun t => t.stack == [2] && t.pc == 9 && t.icount == 1) = true := by decide

/-- T0.5 `RET`: R152, R240: empty stack. -/
theorem test_step_ret_2 : after (load 0x0000000000000100 3 [])
    (fun t => t.fault == some ⟨.stackUnderflow, 3, 0, 1, ⟨0, 0, 0, 0, 0, 0⟩⟩
      && t.pc == 3 && t.icount == 0) = true := by decide

/-- T1.3 `PRINT r1`: R25: x1 = own address. -/
theorem test_step_print_1 : after (load 0x0000000000010001 3 [])
    (fun t => t.output == [3] && t.pc == 4 && t.icount == 1) = true := by decide

/-- T1.4 `PRINT r4 (ignored bits set)`: R86: w[63:24] ignored. -/
theorem test_step_print_2 : after (load 0xFFFFFFFFFF040001 3 [(4, 0xdeadbeef)])
    (fun t => t.output == [3735928559] && t.pc == 4 && t.icount == 1) = true := by decide

/-- T1.6 `READ r2`: R162: mask to 32 bits. -/
theorem test_step_read_1 : after { load 0x0000000000020101 3 [] with input := [.int (-1)] }
    (fun t => t.readReg 2 == 0xffffffff && t.input == [] && t.pc == 4) = true := by decide

/-- T1.8 `READ r2`: R162: MalformedInput; the item is consumed. -/
theorem test_step_read_2 : after { load 0x0000000000020101 3 [] with input := [.malformed, .int (5)] }
    (fun t => t.input == [.int (5)] && t.fault == some ⟨.malformedInput, 3, 1, 1, ⟨2, 0, 0, 0, 0, 0⟩⟩
      && t.pc == 3) = true := by decide

/-- T2.3 `LT r4, r2, r3`: R171, D9: unsigned. -/
theorem test_step_lt_1 : after (load 0x0000000302040002 3 [(2, 0xffffffff), (3, 0x1)])
    (fun t => t.readReg 4 == 0x0 && t.pc == 4 && t.icount == 1) = true := by decide

/-- T2.16 `LT r4, r2, r3`: R170: the old value of x4 is replaced. -/
theorem test_step_lt_2 : after (load 0x0000000302040002 3 [(2, 0x1), (3, 0x5), (4, 0x55)])
    (fun t => t.readReg 4 == 0x1 && t.pc == 4 && t.icount == 1) = true := by decide

/-- T2.5 `GT r4, r2, r3`: R172: equal operands. -/
theorem test_step_gt_1 : after (load 0x0000000302040102 3 [(2, 0x3), (3, 0x3)])
    (fun t => t.readReg 4 == 0x0 && t.pc == 4 && t.icount == 1) = true := by decide

/-- T2.6 `GT r4, r2, r3`: R172, D9: unsigned. -/
theorem test_step_gt_2 : after (load 0x0000000302040102 3 [(2, 0xffffffff), (3, 0x1)])
    (fun t => t.readReg 4 == 0x1 && t.pc == 4 && t.icount == 1) = true := by decide

/-- T2.9 `EQ r4, r2, r3`: R173, D9: unsigned. -/
theorem test_step_eq_1 : after (load 0x0000000302040202 3 [(2, 0xffffffff), (3, 0x1)])
    (fun t => t.readReg 4 == 0x0 && t.pc == 4 && t.icount == 1) = true := by decide

/-- T2.17 `EQ r2, r2, r2`: R139: D = A = B. -/
theorem test_step_eq_2 : after (load 0x0000000202020202 3 [(2, 0x9)])
    (fun t => t.readReg 2 == 0x1 && t.pc == 4 && t.icount == 1) = true := by decide

/-- T2.11 `GE r4, r2, r3`: R174: equal operands. -/
theorem test_step_ge_1 : after (load 0x0000000302040302 3 [(2, 0x3), (3, 0x3)])
    (fun t => t.readReg 4 == 0x1 && t.pc == 4 && t.icount == 1) = true := by decide

/-- T2.12 `GE r4, r2, r3`: R174, D9: unsigned. -/
theorem test_step_ge_2 : after (load 0x0000000302040302 3 [(2, 0xffffffff), (3, 0x1)])
    (fun t => t.readReg 4 == 0x1 && t.pc == 4 && t.icount == 1) = true := by decide

/-- T2.14 `LE r4, r2, r3`: R175: equal operands. -/
theorem test_step_le_1 : after (load 0x0000000302040402 3 [(2, 0x3), (3, 0x3)])
    (fun t => t.readReg 4 == 0x1 && t.pc == 4 && t.icount == 1) = true := by decide

/-- T2.15 `LE r4, r2, r3`: R175, D9: unsigned. -/
theorem test_step_le_2 : after (load 0x0000000302040402 3 [(2, 0xffffffff), (3, 0x1)])
    (fun t => t.readReg 4 == 0x0 && t.pc == 4 && t.icount == 1) = true := by decide

/-- T3.2 `LI r7, 0xDEADBEEF`: R181: no extension. -/
theorem test_step_li_1 : after (load 0x00DEADBEEF070003 3 [])
    (fun t => t.readReg 7 == 0xdeadbeef && t.pc == 4 && t.icount == 1) = true := by decide

/-- T3.5 `LI r1, 5`: R127: LI is not a control transfer. -/
theorem test_step_li_2 : after (load 0x0000000005010003 3 [])
    (fun t => t.fault == some ⟨.illegalRegisterWrite, 3, 3, 0, ⟨1, 5, 0, 0, 0, 0⟩⟩
      && t.pc == 3 && t.icount == 0) = true := by decide

/-- T3.7 `JMP r1, -2`: R182, D4: relative to the JMP. -/
theorem test_step_jmp_1 : after (load 0x00FFFFFFFE010103 9 [])
    (fun t => t.pc == 7 && t.icount == 1) = true := by decide

/-- T3.11 `JMP r0, 16`: R132: target N halts. -/
theorem test_step_jmp_2 : after (load 0x0000000010000103 3 [])
    (fun t => t.runState == .halted && t.pc == 16 && t.icount == 1) = true := by decide

/-- T3.16 `CALL r1, 3`: R183: relative target, push on top. -/
theorem test_step_call_1 : after { load 0x0000000003010203 3 [] with stack := [5] }
    (fun t => t.stack == [4, 5] && t.pc == 6 && t.icount == 1) = true := by decide

/-- T3.15 `CALL r0, 10`: R183, D24: STACK_DEPTH = 4, full. -/
theorem test_step_call_2 : after { load 0x000000000A000203 3 [] with stack := [8, 7, 6, 5] }
    (fun t => t.fault == some ⟨.stackOverflow, 3, 3, 2, ⟨0, 10, 0, 0, 0, 0⟩⟩
      && t.pc == 3 && t.icount == 0) = true := by decide

/-- T4.2 `ST r3, r2, 4`: R61: base f1 + imm. -/
theorem test_step_st_1 : after (load 0x0000000402030004 3 [(2, 0x6), (3, 0x77)])
    (fun t => t.mem == [(10, 0x77)] && t.pc == 4 && t.icount == 1) = true := by decide

/-- T4.4 `ST r3, r2, 4`: R191 alternative roles: stores x2 at x3+4. -/
theorem test_step_st_2 : after { load 0x0000000402030004 3 [(2, 0x77), (3, 0x6)] with
      cfg := { Config.atReset with stRoles := .dataF1BaseF0 } }
    (fun t => t.mem == [(10, 0x77)] && t.pc == 4 && t.icount == 1) = true := by decide

/-- T4.11 `LD r5, r5, 1`: R192: base read before the write. -/
theorem test_step_ld_1 : after { load 0x0000000105050104 3 [(5, 0x3)] with mem := [(4, 0x44)] }
    (fun t => t.readReg 5 == 0x44 && t.pc == 4 && t.icount == 1) = true := by decide

/-- T4.14 `LD r0, r0, 16`: R242: GUARD before EXECUTE. -/
theorem test_step_ld_2 : after (load 0x0000001000000104 3 [])
    (fun t => t.fault == some ⟨.illegalRegisterWrite, 3, 4, 1, ⟨0, 0, 16, 0, 0, 0⟩⟩
      && t.pc == 3 && t.icount == 0) = true := by decide

/-- T4.16 `ADDI r2, r2, 1`: R193, D3: wraps. -/
theorem test_step_addi_1 : after (load 0x0000000102020204 3 [(2, 0xffffffff)])
    (fun t => t.readReg 2 == 0x0 && t.pc == 4 && t.icount == 1) = true := by decide

/-- T4.17 `ADDI r3, r2, -5`: D4: two's-complement offset. -/
theorem test_step_addi_2 : after (load 0xFFFFFFFB02030204 3 [(2, 0xc)])
    (fun t => t.readReg 3 == 0x7 && t.pc == 4 && t.icount == 1) = true := by decide

/-- T4.19 `SUBI r2, r2, 1`: R194: 0 - 1 wraps. -/
theorem test_step_subi_1 : after (load 0x0000000102020304 3 [(2, 0x0)])
    (fun t => t.readReg 2 == 0xffffffff && t.pc == 4 && t.icount == 1) = true := by decide

/-- T4.20 `SUBI r3, r2, 2`: R194. -/
theorem test_step_subi_2 : after (load 0x0000000202030304 3 [(2, 0xa)])
    (fun t => t.readReg 3 == 0x8 && t.pc == 4 && t.icount == 1) = true := by decide

/-- T4.22 `MULI r3, r2, 0x10000`: R195: low 32 bits kept. -/
theorem test_step_muli_1 : after (load 0x0001000002030404 3 [(2, 0x10000)])
    (fun t => t.readReg 3 == 0x0 && t.pc == 4 && t.icount == 1) = true := by decide

/-- T4.23 `MULI r3, r2, -1`: R195: = wrap32(-3). -/
theorem test_step_muli_2 : after (load 0xFFFFFFFF02030404 3 [(2, 0x3)])
    (fun t => t.readReg 3 == 0xfffffffd && t.pc == 4 && t.icount == 1) = true := by decide

/-- T4.25 `DIVI r3, r2, 2`: R196, D12: unsigned. -/
theorem test_step_divi_1 : after (load 0x0000000202030504 3 [(2, 0xffffffff)])
    (fun t => t.readReg 3 == 0x7fffffff && t.pc == 4 && t.icount == 1) = true := by decide

/-- T4.27 `DIVI r0, r2, 0`: R242: guard first. -/
theorem test_step_divi_2 : after (load 0x0000000002000504 3 [(2, 0x11)])
    (fun t => t.fault == some ⟨.illegalRegisterWrite, 3, 4, 5, ⟨0, 2, 0, 0, 0, 0⟩⟩
      && t.pc == 3 && t.icount == 0) = true := by decide

/-- T4.29 `SHRI r3, r2, 31`: R197. -/
theorem test_step_shri_1 : after (load 0x0000001F02030604 3 [(2, 0x80000000)])
    (fun t => t.readReg 3 == 0x1 && t.pc == 4 && t.icount == 1) = true := by decide

/-- T4.30 `SHRI r3, r2, 32`: R197, D11: amount >= 32 gives 0. -/
theorem test_step_shri_2 : after (load 0x0000002002030604 3 [(2, 0xffffffff)])
    (fun t => t.readReg 3 == 0x0 && t.pc == 4 && t.icount == 1) = true := by decide

/-- T4.33 `SHLI r3, r2, 31`: R198. -/
theorem test_step_shli_1 : after (load 0x0000001F02030704 3 [(2, 0x3)])
    (fun t => t.readReg 3 == 0x80000000 && t.pc == 4 && t.icount == 1) = true := by decide

/-- T4.34 `SHLI r3, r2, 33`: R198, D11: not reduced modulo 32. -/
theorem test_step_shli_2 : after (load 0x0000002102030704 3 [(2, 0x1)])
    (fun t => t.readReg 3 == 0x0 && t.pc == 4 && t.icount == 1) = true := by decide

/-- T4.35 `ANDI r3, r2, 0xFF`: R199. -/
theorem test_step_andi_1 : after (load 0x000000FF02030804 3 [(2, 0x1234)])
    (fun t => t.readReg 3 == 0x34 && t.pc == 4 && t.icount == 1) = true := by decide

/-- T4.36 `ORI r3, r2, 0xF0`: R200. -/
theorem test_step_ori_1 : after (load 0x000000F002030904 3 [(2, 0xf)])
    (fun t => t.readReg 3 == 0xff && t.pc == 4 && t.icount == 1) = true := by decide

/-- T4.37 `XORI r3, r2, 0xFFFFFFFF`: R201: bitwise NOT. -/
theorem test_step_xori_1 : after (load 0xFFFFFFFF02030A04 3 [(2, 0xf0f0f0f)])
    (fun t => t.readReg 3 == 0xf0f0f0f0 && t.pc == 4 && t.icount == 1) = true := by decide

/-- T4.38 `LTI r3, r2, 10`: R202. -/
theorem test_step_lti_1 : after (load 0x0000000A02030B04 3 [(2, 0x9)])
    (fun t => t.readReg 3 == 0x1 && t.pc == 4 && t.icount == 1) = true := by decide

/-- T4.39 `LTI r3, r2, 10`: R202, D9: unsigned. -/
theorem test_step_lti_2 : after (load 0x0000000A02030B04 3 [(2, 0xffffffff)])
    (fun t => t.readReg 3 == 0x0 && t.pc == 4 && t.icount == 1) = true := by decide

/-- T4.40 `GTI r3, r2, 10`: R203. -/
theorem test_step_gti_1 : after (load 0x0000000A02030C04 3 [(2, 0xa)])
    (fun t => t.readReg 3 == 0x0 && t.pc == 4 && t.icount == 1) = true := by decide

/-- T4.41 `GTI r3, r2, 10`: R203, D9: unsigned. -/
theorem test_step_gti_2 : after (load 0x0000000A02030C04 3 [(2, 0xffffffff)])
    (fun t => t.readReg 3 == 0x1 && t.pc == 4 && t.icount == 1) = true := by decide

/-- T4.43 `EQI r3, r2, -1`: R204. -/
theorem test_step_eqi_1 : after (load 0xFFFFFFFF02030D04 3 [(2, 0xffffffff)])
    (fun t => t.readReg 3 == 0x1 && t.pc == 4 && t.icount == 1) = true := by decide

/-- T4.44 `JGTZ r2, r1, -2`: R205: taken. -/
theorem test_step_jgtz_1 : after (load 0xFFFFFFFE01020E04 4 [(2, 0x2)])
    (fun t => t.pc == 2 && t.icount == 1) = true := by decide

/-- T4.47 `JGTZ r2, r1, -2`: R205, D10. -/
theorem test_step_jgtz_2 : after (load 0xFFFFFFFE01020E04 4 [(2, 0x80000000)])
    (fun t => t.pc == 5 && t.icount == 1) = true := by decide

/-- T5.2 `DIV r4, r5, r2, r3, r6`: R222, D14: stepwise. -/
theorem test_step_div_1 : after (load 0x0006030205040005 3 [(2, 0x64), (3, 0x7), (6, 0x3)])
    (fun t => t.readReg 4 == 0x4 && t.readReg 5 == 0x2 && t.pc == 4) = true := by decide

/-- T5.6 `DIV r4, r4, r2, r3`: D14: Q = R keeps the remainder. -/
theorem test_step_div_2 : after (load 0x0000030204040005 3 [(2, 0x64), (3, 0x7)])
    (fun t => t.readReg 4 == 0x2 && t.pc == 4 && t.icount == 1) = true := by decide

/-- T5.10 `MUL r6, _, r2, r3, r4`: R223. -/
theorem test_step_mul_1 : after (load 0x0004030200060105 3 [(2, 0x64), (3, 0x7), (4, 0xe)])
    (fun t => t.readReg 6 == 0x2648 && t.pc == 4 && t.icount == 1) = true := by decide

/-- T5.12 `MUL r6, r1, r2, r3`: D16: f1 ignored, not guarded; wraps to 0. -/
theorem test_step_mul_2 : after (load 0x0000030201060105 3 [(2, 0x10000), (3, 0x10000)])
    (fun t => t.readReg 6 == 0x0 && t.pc == 4 && t.icount == 1) = true := by decide

/-- T5.14 `ADD r4, _, r2, r3, r5, r6`: R221: four sources. -/
theorem test_step_add_1 : after (load 0x0605030200040205 3 [(2, 0x1), (3, 0x2), (5, 0x4), (6, 0x8)])
    (fun t => t.readReg 4 == 0xf && t.pc == 4 && t.icount == 1) = true := by decide

/-- T5.15 `ADD r4, _, r2, r3, _, r6`: R221: chain ends at f4 = 0; f5 ignored. -/
theorem test_step_add_2 : after (load 0x0600030200040205 3 [(2, 0x1), (3, 0x2), (6, 0x8)])
    (fun t => t.readReg 4 == 0x3 && t.pc == 4 && t.icount == 1) = true := by decide

/-- T5.19 `SUB r4, _, r2, r3, r5`: R225. -/
theorem test_step_sub_1 : after (load 0x0005030200040305 3 [(2, 0xa), (3, 0x3), (5, 0x2)])
    (fun t => t.readReg 4 == 0x5 && t.pc == 4 && t.icount == 1) = true := by decide

/-- T5.20 `SUB r4, _, r2, r3`: R225, D3. -/
theorem test_step_sub_2 : after (load 0x0000030200040305 3 [(2, 0x3), (3, 0x5)])
    (fun t => t.readReg 4 == 0xfffffffe && t.pc == 4 && t.icount == 1) = true := by decide

/-- T5.23 `AND r4, _, r2, r3, r5`: R226: chain. -/
theorem test_step_and_1 : after (load 0x0005030200040405 3 [(2, 0xf0f0), (3, 0xff00), (5, 0x3000)])
    (fun t => t.readReg 4 == 0x3000 && t.pc == 4 && t.icount == 1) = true := by decide

/-- T5.24 `OR r4, _, r2, r3`: R227. -/
theorem test_step_or_1 : after (load 0x0000030200040505 3 [(2, 0xf0f0), (3, 0xff00)])
    (fun t => t.readReg 4 == 0xfff0 && t.pc == 4 && t.icount == 1) = true := by decide

/-- T5.26 `XOR r4, _, r2, r3, r2`: R228: chain. -/
theorem test_step_xor_1 : after (load 0x0002030200040605 3 [(2, 0xf0f0), (3, 0xff00)])
    (fun t => t.readReg 4 == 0xff00 && t.pc == 4 && t.icount == 1) = true := by decide

/-- T5.28 `SHUF r2, r3, _, r3, r2, _`: D17: sequential, not a swap. -/
theorem test_step_shuf_1 : after (load 0x0002030003020705 3 [(2, 0xa), (3, 0xb)])
    (fun t => t.readReg 2 == 0xa && t.readReg 3 == 0xa && t.pc == 4) = true := by decide

/-- T5.29 `SHUF _, _, r2, r0, r1, r9`: D17: skipped slots are not guarded. -/
theorem test_step_shuf_2 : after (load 0x0901000200000705 3 [(2, 0x5)])
    (fun t => t.readReg 9 == 0x5 && t.pc == 4 && t.icount == 1) = true := by decide

/-- T2.20 `(family 2, opcode 5)`: R93. -/
theorem test_step_unlisted_opcode : after (load 0x0000000302040502 3 [])
    (fun t => t.fault == some ⟨.unknownFamilyOrOpcode, 3, 2, 5, ⟨4, 2, 3, 0, 0, 0⟩⟩
      && t.pc == 3 && t.icount == 0) = true := by decide

/-- T9.1 `(family 6)`: R85: snapshot family 6, opcode 0, fields 0. -/
theorem test_step_unknown_family : after (load 0x0000000302040006 3 [])
    (fun t => t.fault == some ⟨.unknownFamilyOrOpcode, 3, 6, 0, ⟨0, 0, 0, 0, 0, 0⟩⟩
      && t.pc == 3 && t.icount == 0) = true := by decide

/-- T9.3 `any word at p = N + 1`: R122: FetchOutOfRange. -/
theorem test_step_fetch_beyond_program : after (load 0x0000000000000000 17 [])
    (fun t => t.fault == some ⟨.fetchOutOfRange, 17, 0, 0, ⟨0, 0, 0, 0, 0, 0⟩⟩
      && t.pc == 17 && t.icount == 0) = true := by decide

/-! ### Witnesses: a concrete state and operands meeting the hypotheses of each statement, clause by clause -/

/-- A program counter below N fetches its word. -/
theorem fetches_load (word : InstrWord) (p : Word) (h : p.toNat < 16) : Fetches (load word p []) word := by
  constructor
  · change (if ((List.replicate 16 (0 : InstrWord)).set p.toNat word).length = 0 then _ else _) = _
    rw [List.length_set, List.length_replicate, if_neg (by decide)]
  · exact List.getElem?_set_self (by rw [List.length_replicate]; exact h)

/-- A state is about to run one instruction only. -/
theorem aboutToRun_unique {s : State} {i j : Instr} (hi : AboutToRun s i) (hj : AboutToRun s j) : j = i := by
  obtain ⟨w, hw, hd⟩ := hi
  obtain ⟨w', hw', hd'⟩ := hj
  have : w = w' := Option.some.inj (hw.2.symm.trans hw'.2)
  subst this
  exact DecodeResult.instr.inj (hd'.symm.trans hd)

/-- NOP at p = 3. -/
def nopState : State := load 0 3 []

theorem nop_ready : AboutToRun nopState .nop := ⟨0, fetches_load 0 3 (by decide), by decide⟩

theorem nop_inv : nopState.Inv :=
  ⟨by decide, by decide, by decide, by decide, by decide, fun _ h => (List.not_mem_nil h).elim, by decide, by decide,
    by decide, by decide⟩

theorem nop_steps : step nopState = .next ((nopState.commit {}).advance none) := by rfl

/-- The widest tuple of family 5, and a word of the last known family. -/
theorem test_hyp_DecodingIsLossless :
    Decoded.wellFormed ⟨5, 255, ⟨255, 255, 255, 255, 255, 255⟩⟩ = true ∧
    layoutTable (5 : Byte).toNat = some [8, 8, 8, 8, 8, 8] ∧
    ((0xFFFFFFFFFFFFFF05 : InstrWord).extractLsb' 0 8).toNat ≤ 5 := by decide

/-- One word for each family, the two ends of the unknown ones included. -/
theorem test_hyp_FieldPositions :
    (0xFF00 : InstrWord).extractLsb' 0 8 = 0 ∧ (0xFF01 : InstrWord).extractLsb' 0 8 = 1 ∧
    (0xFF02 : InstrWord).extractLsb' 0 8 = 2 ∧ (0xFF03 : InstrWord).extractLsb' 0 8 = 3 ∧
    (0xFF04 : InstrWord).extractLsb' 0 8 = 4 ∧ (0xFF05 : InstrWord).extractLsb' 0 8 = 5 ∧
    5 < ((0xFF06 : InstrWord).extractLsb' 0 8).toNat ∧ 5 < ((0xFFFF : InstrWord).extractLsb' 0 8).toNat := by decide

theorem test_hyp_IgnoredBitsHaveNoEffect :
    DifferOnlyInIgnoredBits 0 0xFFFFFFFFFFFF0000 ∧ DifferOnlyInIgnoredBits 0x0000000005020003 0xFF00000005020003 ∧
    Fetches nopState 0 ∧ ∃ t, step nopState = .next t :=
  ⟨by unfold DifferOnlyInIgnoredBits; decide, by unfold DifferOnlyInIgnoredBits; decide,
    fetches_load 0 3 (by decide), _, nop_steps⟩

/-- Family 6, the first unknown one, and family 5 with opcode 8, the first unlisted one. -/
theorem test_hyp_UnlistedWordsFault :
    (Fetches (load 6 3 []) 6 ∧ (6 : InstrWord).extractLsb' 0 16 ∉ matchValues ∧
      5 < ((6 : InstrWord).extractLsb' 0 8).toNat) ∧
    (Fetches (load 0x0805 3 []) 0x0805 ∧ (0x0805 : InstrWord).extractLsb' 0 16 ∉ matchValues ∧
      ((0x0805 : InstrWord).extractLsb' 0 8).toNat ≤ 5) :=
  ⟨⟨fetches_load _ _ (by decide), by decide, by decide⟩, ⟨fetches_load _ _ (by decide), by decide, by decide⟩⟩

theorem test_hyp_StepRunsTheDecodedInstruction : Fetches nopState 0 ∧ decode 0 = .instr .nop :=
  ⟨fetches_load 0 3 (by decide), by decide⟩

/-- pc = N, pc = N + 1, pc = N - 1, and a Running state of a run. -/
theorem test_hyp_FetchReadsTheProgramImage :
    ((load 0 16 []).runState = .running ∧ (load 0 16 []).progLength ≤ (load 0 16 []).pc.toNat) ∧
    ((load 0 17 []).runState = .running ∧ (load 0 17 []).progLength ≤ (load 0 17 []).pc.toNat) ∧
    ((load 0x0100 15 []).pc.toNat < (load 0x0100 15 []).prog.length ∧ (load 0x0100 15 []).runState = .running ∧
      decode ((load 0x0100 15 []).prog[15]'(by decide)) = .instr .ret) ∧
    ((load 6 15 []).pc.toNat < (load 6 15 []).prog.length ∧ (load 6 15 []).runState = .running ∧
      ∀ i, decode ((load 6 15 []).prog[15]'(by decide)) ≠ .instr i) ∧
    (nopState.Inv ∧ nopState.runState = .running) :=
  ⟨by decide, by decide, by decide, ⟨by decide, by decide, fun _ => DecodeResult.noConfusion⟩, nop_inv, rfl⟩

theorem test_hyp_TerminalStatesStay :
    ({ nopState with runState := .halted }).runState ≠ .running ∧
    ({ nopState with runState := .faulted }).runState ≠ .running := by decide

/-- READ r2 with no item yet, and r255. -/
theorem test_hyp_ReadWaitsForInput :
    AboutToRun (load 0x0000000000020101 3 []) (.read 2) ∧ Writable 2 ∧ (load 0x0000000000020101 3 []).input = [] ∧
    AboutToRun (load 0x0000000000FF0101 3 []) (.read 255) ∧ Writable 255 ∧
      (load 0x0000000000FF0101 3 []).input = [] :=
  ⟨⟨_, fetches_load _ _ (by decide), by decide⟩, by decide, rfl, ⟨_, fetches_load _ _ (by decide), by decide⟩,
    by decide, rfl⟩

/-- A step that commits; one that faults on a Malformed item; one that waits. -/
theorem test_hyp_StepIsAllOrNothing :
    (nopState.runState = .running ∧ ∃ t, step nopState = .next t ∧ t.icount = nopState.icount + 1) ∧
    (∃ t, step { load 0x0000000000020101 3 [] with input := [.malformed] } = .next t ∧ t.runState = .faulted) ∧
    step (load 0x0000000000020101 3 []) = .next (load 0x0000000000020101 3 []) :=
  ⟨⟨rfl, _, nop_steps, rfl⟩, ⟨_, rfl, rfl⟩, rfl⟩

/-- A step to N, and one that stays below it. -/
theorem test_hyp_HaltsExactlyAtN :
    (∃ t, (load 0 15 []).runState = .running ∧ step (load 0 15 []) = .next t ∧
      t.icount = (load 0 15 []).icount + 1 ∧ t.pc.toNat = (load 0 15 []).progLength) ∧
    (∃ t, nopState.runState = .running ∧ step nopState = .next t ∧ t.icount = nopState.icount + 1 ∧
      t.pc.toNat ≠ nopState.progLength) :=
  ⟨⟨_, rfl, rfl, rfl, by decide⟩, ⟨_, rfl, nop_steps, rfl, by decide⟩⟩

/-- Faults of FETCH, of DECODE, of DISPATCH, and of EXECUTE (RET on an empty stack). -/
theorem test_hyp_FaultEntryRecordsTheSnapshot :
    (∃ t, step (load 0 16 []) = .next t ∧ t.runState = .faulted ∧
      (load 0 16 []).progLength ≤ (load 0 16 []).pc.toNat) ∧
    (∃ t, step (load 6 3 []) = .next t ∧ t.runState = .faulted ∧ (load 6 3 []).prog[3]? = some 6 ∧
      5 < ((6 : InstrWord).extractLsb' 0 8).toNat) ∧
    (∃ t, step (load 0x0805 3 []) = .next t ∧ t.runState = .faulted ∧
      ((0x0805 : InstrWord).extractLsb' 0 8).toNat ≤ 5) ∧
    (∃ t, step (load 0x0100 3 []) = .next t ∧ t.runState = .faulted ∧ (load 0x0100 3 []).prog[3]? = some 0x0100 ∧
      ((0x0100 : InstrWord).extractLsb' 0 8).toNat ≤ 5) :=
  ⟨⟨_, rfl, rfl, by decide⟩, ⟨_, rfl, rfl, rfl, by decide⟩, ⟨_, rfl, rfl, by decide⟩, ⟨_, rfl, rfl, rfl, by decide⟩⟩

/-- Registers 0 and 1, in one destination and in the second of DIV. -/
theorem test_hyp_WriteGuardFaults :
    (∃ d ∈ destinations (.li 0 5), d = 0 ∨ d = 1) ∧ (∃ d ∈ destinations (.div 4 1 2 3 0 0), d = 0 ∨ d = 1) := by
  decide

theorem test_hyp_NullRegisterReadsZero : (0 : RegIdx) ∈ destinations (.shuf 0 2 0 0 0 0) := by decide

theorem test_hyp_OnlyDestinationsChange :
    (∃ t, exec .nop nopState = .next t) ∧ (255 : RegIdx) ≠ 1 ∧ (255 : RegIdx) ∉ destinations .nop :=
  ⟨⟨_, rfl⟩, by decide, by decide⟩

/-- JGTZ taken and not taken, and RET from a call stack; and a next instruction to go on with. -/
theorem test_hyp_NextProgramCounter :
    (∃ t, exec (.jgtz 1 0 9) nopState = .next t ∧ t.icount = nopState.icount + 1 ∧ t.pc = 9) ∧
    (∃ t, exec (.jgtz 0 0 9) nopState = .next t ∧ t.icount = nopState.icount + 1 ∧ t.pc = 4) ∧
    (∃ t, exec .ret { nopState with stack := [7] } = .next t ∧ t.icount = nopState.icount + 1 ∧ t.pc = 7) ∧
    (∃ t, exec .nop nopState = .next t ∧ t.icount = nopState.icount + 1 ∧ t.runState = .running ∧
      nopState.prog[(nextPc .nop nopState).toNat]? = some 0 ∧ decode 0 = .instr .nop) :=
  ⟨⟨_, rfl, rfl, rfl⟩, ⟨_, rfl, rfl, rfl⟩, ⟨_, rfl, rfl, rfl⟩,
    ⟨_, rfl, rfl, rfl, rfl, by decide⟩⟩

/-- Each of the four loops; the last with one entry left, and with none (n = 0). -/
theorem test_hyp_SelfTransfersRepeat :
    AboutToRun (load 0x0000000000010103 3 []) (.jmp 1 0) ∧
    (AboutToRun (load 0x0000000001010E04 3 []) (.jgtz 1 1 0) ∧
      0 < ((load 0x0000000001010E04 3 []).readReg 1).toInt) ∧
    (AboutToRun { load 0x0000000000010203 3 [] with cfg := { Config.atReset with stackDepth := .unbounded } }
      (.call 1 0)) ∧
    (AboutToRun { load 0x0000000000010203 3 [] with stack := [1, 2, 3] } (.call 1 0) ∧
      Config.atReset.stackDepth = .finite ([1, 2, 3].length + 1)) ∧
    (AboutToRun { load 0x0000000000010203 3 [] with stack := [1, 2, 3, 4] } (.call 1 0) ∧
      Config.atReset.stackDepth = .finite ([1, 2, 3, 4].length + 0)) :=
  ⟨⟨_, fetches_load _ _ (by decide), by decide⟩, ⟨⟨_, fetches_load _ _ (by decide), by decide⟩, by decide⟩,
    ⟨0x0000000000010203, ⟨rfl, rfl⟩, by decide⟩, ⟨⟨0x0000000000010203, ⟨rfl, rfl⟩, by decide⟩, rfl⟩,
    ⟨⟨0x0000000000010203, ⟨rfl, rfl⟩, by decide⟩, rfl⟩⟩

theorem test_hyp_StepKeepsTheInvariant : nopState.Inv ∧ ∃ t, step nopState = .next t := ⟨nop_inv, _, nop_steps⟩

/-- The largest configuration. -/
theorem test_hyp_CreationMeetsTheInvariant :
    ({ memSize := 4294967296, stackDepth := .finite 1, stRoles := .dataF1BaseF0 } : Config).wellFormed = true ∧
    programWellFormed [0, 1] = true := by decide

/-- A program of one RET, whose first step decodes. -/
theorem test_hyp_RunsStartAtIndexZero :
    decode 0x0100 = .instr .ret ∧ Fetches (State.create Config.atReset [0x0100] []) 0x0100 :=
  ⟨by decide, rfl, rfl⟩

theorem test_hyp_RunInputsNeverChange : ∃ t, step nopState = .next t := ⟨_, nop_steps⟩

theorem test_hyp_OnlyLoadAndStoreAccessMemory :
    (∀ f0 f1 imm, ¬ AboutToRun nopState (.st f0 f1 imm)) ∧ (∀ d b imm, ¬ AboutToRun nopState (.ld d b imm)) ∧
    ∃ t, step nopState = .next t :=
  ⟨fun _ _ _ h => Instr.noConfusion (aboutToRun_unique nop_ready h),
    fun _ _ _ h => Instr.noConfusion (aboutToRun_unique nop_ready h), _, nop_steps⟩

theorem test_hyp_OnlyCallAndReturnAccessTheStack :
    (∀ b imm, ¬ AboutToRun nopState (.call b imm)) ∧ ¬ AboutToRun nopState .ret ∧ ∃ t, step nopState = .next t :=
  ⟨fun _ _ h => Instr.noConfusion (aboutToRun_unique nop_ready h),
    fun h => Instr.noConfusion (aboutToRun_unique nop_ready h), _, nop_steps⟩

theorem test_hyp_OnlyReadAndPrintUseTheChannels :
    (∀ d, ¬ AboutToRun nopState (.read d)) ∧ (∀ a, ¬ AboutToRun nopState (.print a)) ∧ ∃ t, step nopState = .next t :=
  ⟨fun _ h => Instr.noConfusion (aboutToRun_unique nop_ready h),
    fun _ h => Instr.noConfusion (aboutToRun_unique nop_ready h), _, nop_steps⟩

theorem test_hyp_StatusIsNotProgramVisible : nopState.runState = .running ∧ ∃ t, step nopState = .next t :=
  ⟨rfl, _, nop_steps⟩

/-- READ with one item there already, and an instruction that is no READ with none. -/
theorem test_hyp_SuppliedItemsWaitTheirTurn :
    (∃ t, step { load 0x0000000000020101 3 [] with input := [.int 5] } = .next t ∧ t.readReg 2 = 5) ∧
    (∃ t, step nopState = .next t) ∧ (∀ d, AboutToRun nopState (.read d) → nopState.input ≠ []) :=
  ⟨⟨_, rfl, by decide⟩, ⟨_, nop_steps⟩, fun _ h => Instr.noConfusion (aboutToRun_unique nop_ready h)⟩

theorem test_hyp_InstructionsRaiseOnlyTheirFaults :
    ∃ t snap, nopState.runState = .running ∧ exec .ret nopState = .next t ∧ t.runState = .faulted ∧
      t.fault = some snap ∧ snap.kind = .stackUnderflow := ⟨_, _, rfl, rfl, rfl, rfl, rfl⟩

/-- For every one of the 35 pairs, the word of its two fixed fields has that code: the encoding clauses. -/
theorem test_hyp_HasCode : ∀ c ∈ ([(0, 2), (1, 2), (2, 5), (3, 3), (4, 15), (5, 8)] : List (Byte × Nat)),
    ∀ k < c.2, HasCode (BitVec.ofNat 64 (c.1.toNat + 256 * k)) c.1 (BitVec.ofNat 8 k) := by
  unfold HasCode; decide

/-- The guard's clauses, for every statement of an instruction with a destination: both guarded registers, and the
ends of the writable ones. -/
theorem test_hyp_Writable : ((0 : RegIdx) = 0 ∨ (0 : RegIdx) = 1) ∧ ((1 : RegIdx) = 0 ∨ (1 : RegIdx) = 1) ∧
    Writable 2 ∧ Writable 255 := by decide

theorem test_hyp_NopAdvancesOnly : HasCode 0xFFFFFFFFFFFF0000 0 0 := by unfold HasCode; decide

theorem test_hyp_PrintEmitsTheRegister : HasCode 0x0000000000040001 1 0 := by unfold HasCode; decide

theorem test_hyp_ComparisonsWriteOneOrZero :
    HasCode 0x0000000302040002 2 0 ∧ HasCode 0x0000000302040102 2 1 ∧ HasCode 0x0000000302040202 2 2 ∧
    HasCode 0x0000000302040302 2 3 ∧ HasCode 0x0000000302040402 2 4 ∧
    ((0 : RegIdx) = 0 ∨ (0 : RegIdx) = 1) ∧ ((1 : RegIdx) = 0 ∨ (1 : RegIdx) = 1) ∧ Writable 2 ∧ Writable 255 := by
  unfold HasCode; decide

theorem test_hyp_LoadImmediateStoresExactly :
    HasCode 0x0000000005020003 3 0 ∧
    ((0 : RegIdx) = 0 ∨ (0 : RegIdx) = 1) ∧ ((1 : RegIdx) = 0 ∨ (1 : RegIdx) = 1) ∧ Writable 2 ∧ Writable 255 := by
  unfold HasCode; decide

theorem test_hyp_ImmediateArithmeticWraps :
    HasCode 0x0000000102020204 4 2 ∧ HasCode 0x0000000102020304 4 3 ∧ HasCode 0x0000000302030404 4 4 ∧
    ((0 : RegIdx) = 0 ∨ (0 : RegIdx) = 1) ∧ ((1 : RegIdx) = 0 ∨ (1 : RegIdx) = 1) ∧ Writable 2 ∧ Writable 255 := by
  unfold HasCode; decide

theorem test_hyp_ShiftsUseTheWholeAmount :
    HasCode 0x0000002002030604 4 6 ∧ HasCode 0x0000002102030704 4 7 ∧
    ((0 : RegIdx) = 0 ∨ (0 : RegIdx) = 1) ∧ ((1 : RegIdx) = 0 ∨ (1 : RegIdx) = 1) ∧ Writable 2 ∧ Writable 255 := by
  unfold HasCode; decide

theorem test_hyp_ImmediateLogicIsBitwise :
    HasCode 0x000000FF02030804 4 8 ∧ HasCode 0x000000F002030904 4 9 ∧ HasCode 0xFFFFFFFF02030A04 4 10 ∧
    ((0 : RegIdx) = 0 ∨ (0 : RegIdx) = 1) ∧ ((1 : RegIdx) = 0 ∨ (1 : RegIdx) = 1) ∧ Writable 2 ∧ Writable 255 := by
  unfold HasCode; decide

theorem test_hyp_ImmediateComparisons :
    HasCode 0x0000000A02030B04 4 11 ∧ HasCode 0x0000000A02030C04 4 12 ∧ HasCode 0x0000000A02030D04 4 13 ∧
    ((0 : RegIdx) = 0 ∨ (0 : RegIdx) = 1) ∧ ((1 : RegIdx) = 0 ∨ (1 : RegIdx) = 1) ∧ Writable 2 ∧ Writable 255 := by
  unfold HasCode; decide

theorem test_hyp_ArithmeticChainsFoldLeft :
    HasCode 0x0004030200060105 5 1 ∧ HasCode 0x0605030200040205 5 2 ∧ HasCode 0x0005030200040305 5 3 ∧
    ((0 : RegIdx) = 0 ∨ (0 : RegIdx) = 1) ∧ ((1 : RegIdx) = 0 ∨ (1 : RegIdx) = 1) ∧ Writable 2 ∧ Writable 255 := by
  unfold HasCode; decide

theorem test_hyp_LogicChainsFoldLeft :
    HasCode 0x0005030200040405 5 4 ∧ HasCode 0x0000030200040505 5 5 ∧ HasCode 0x0002030200040605 5 6 ∧
    ((0 : RegIdx) = 0 ∨ (0 : RegIdx) = 1) ∧ ((1 : RegIdx) = 0 ∨ (1 : RegIdx) = 1) ∧ Writable 2 ∧ Writable 255 := by
  unfold HasCode; decide

/-- RET: an empty stack; a stack holding N, in a state of a run. -/
theorem test_hyp_ReturnPopsIntoPc :
    nopState.stack = [] ∧ ({ nopState with stack := [16, 1] } : State).stack = 16 :: [1] ∧
    ({ nopState with stack := [16, 1] } : State).Inv :=
  ⟨rfl, rfl, by decide, by decide, by decide, by decide, by decide,
    fun v h => by rcases List.mem_cons.1 h with rfl | h; · decide
                  · rw [List.mem_singleton.1 h]; decide,
    by decide, by decide, by decide, by decide⟩

theorem test_hyp_CallReturnIsBalanced : ∃ t u : State, exec (.call 0 9) nopState = .next t ∧
    t.icount = nopState.icount + 1 ∧ u.stack = t.stack ∧ u.stack = [4] :=
  ⟨_, { nopState with stack := [4] }, rfl, rfl, rfl, rfl⟩

/-- READ: the four cases of the channel. -/
theorem test_hyp_ReadTakesOneItem :
    nopState.input = [] ∧ ({ nopState with input := [.malformed, .int 5] } : State).input = .malformed :: [.int 5] ∧
    ({ nopState with input := [.int (-1)] } : State).input = .int (-1) :: [] := by decide

/-- JMP to N + 1. -/
theorem test_hyp_JumpAddsModulo : ∃ t, nopState.runState = .running ∧ exec (.jmp 0 17) nopState = .next t ∧
    nopState.progLength < (nopState.readReg 0 + 17).toNat := ⟨_, rfl, rfl, by decide⟩

/-- CALL: a full stack, one with one entry left, and an unbounded one. -/
theorem test_hyp_CallPushesTheNextIndex :
    Config.atReset.stackDepth = .finite ([5, 6, 7, 8] : List Word).length ∧
    Config.atReset.stackDepth ≠ .finite ([6, 7, 8] : List Word).length ∧
    StackDepth.unbounded ≠ .finite 0 := by decide

/-- ST: both roles, an effective address equal to MEM_SIZE and one below it. -/
theorem test_hyp_StoreWritesOneCell :
    (nopState.cfg.stRoles = .dataF0BaseF1 ∧ nopState.cfg.memSize ≤ (nopState.effectiveAddress 0 16).toNat ∧
      (nopState.effectiveAddress 0 15).toNat < nopState.cfg.memSize) ∧
    (({ nopState with cfg := { Config.atReset with stRoles := .dataF1BaseF0 } } : State).cfg.stRoles =
      .dataF1BaseF0) := by decide

/-- LD at MEM_SIZE and one below it. -/
theorem test_hyp_LoadReadsOneCell : nopState.cfg.memSize ≤ (nopState.readReg 0 + 16).toNat ∧
    (nopState.readReg 0 + 15).toNat < nopState.cfg.memSize ∧ Writable 2 := by decide

/-- ST r3, r0, 10 then LD r5, r0, 10 (the stored cell), and LD r5, r0, 11 (another one). -/
theorem test_hyp_LoadReturnsTheLatestStore :
    ∃ t u v, exec (.st 3 0 10) (load 0 3 [(3, 6)]) = .next t ∧ t.icount = (load 0 3 [(3, 6)]).icount + 1 ∧ Writable 5 ∧
      exec (.ld 5 0 10) t = .next u ∧ u.icount = t.icount + 1 ∧
      exec (.ld 5 0 11) t = .next v ∧ v.icount = t.icount + 1 := ⟨_, _, _, rfl, rfl, by decide, rfl, rfl, rfl, rfl⟩

/-- DIVI: a zero and a smallest non-zero divisor. -/
theorem test_hyp_ImmediateDivisionIsUnsigned : Writable 2 ∧ (0 : Word) = 0 ∧ (1 : Word) ≠ 0 := by decide

/-- JGTZ: the ends of both ranges. -/
theorem test_hyp_JumpIfGreaterThanZero :
    0 < ((load 0 3 [(2, 1)]).readReg 2).toInt ∧ 0 < ((load 0 3 [(2, 0x7FFFFFFF)]).readReg 2).toInt ∧
    ¬ 0 < ((load 0 3 [(2, 0)]).readReg 2).toInt ∧ ¬ 0 < ((load 0 3 [(2, 0x80000000)]).readReg 2).toInt := by decide

/-- DIV: a zero divisor at the first and at the last place, and none, with one destination and with two. -/
theorem test_hyp_DivisionGoesStepwise :
    (∃ k ∈ (3 : RegIdx) :: chained 0 0, (load 0 3 [(2, 9)]).readReg k = 0) ∧
    (∃ k ∈ (3 : RegIdx) :: chained 4 5, (load 0 3 [(3, 7), (4, 3)]).readReg k = 0) ∧
    (∀ k ∈ (3 : RegIdx) :: chained 4 5, (load 0 3 [(3, 7), (4, 3), (5, 1)]).readReg k ≠ 0) ∧
    Writable 6 ∧ Writable 7 ∧ (6 : RegIdx) ≠ 7 := by decide

/-- The chain with a third source, with a fourth, and sources that are not the destination. -/
theorem test_hyp_ChainsEqualTwoOperandSequences :
    Writable 4 ∧ Writable 5 ∧ (5 : RegIdx) ≠ 4 ∧ Writable 255 ∧ (255 : RegIdx) ≠ 4 := by decide

/-- SHUF: an active slot to x[1]; an inactive one to x[0] beside an active one to x[9]. -/
theorem test_hyp_ShuffleActsInSequence :
    ((2 : RegIdx) ≠ 0 ∧ ((1 : RegIdx) = 0 ∨ (1 : RegIdx) = 1)) ∧
    (((0 : RegIdx) ≠ 0 → Writable 0) ∧ ((0 : RegIdx) ≠ 0 → Writable 1) ∧ ((2 : RegIdx) ≠ 0 → Writable 9)) := by decide

/-- The idioms: a source that is not x[0], a jump to N, and both outcomes of JGTZ. -/
theorem test_hyp_IdiomsHaveTheirEffects :
    Writable 2 ∧ (3 : RegIdx) ≠ 0 ∧ (16 : Word).toNat = nopState.progLength ∧
    0 < (nopState.readReg 1).toInt ∧ ¬ 0 < (nopState.readReg 0).toInt := by decide

/-! ### The per-instruction family -/

theorem test_perInstr_wellFormed : Laws.WellFormed.Statement (.shuf 1 2 3 4 5 6) := Laws.WellFormed.shuf 1 2 3 4 5 6

end Sys2Proof.Tests
end

section
/-!
PROOFS. The invariant of a run (`State.Inv`): every operation a step is made of keeps it, so every step does; and the
creation of a run has it.
-/

namespace Sys2Proof.Machine

/-! ### What an execution may stage -/

/-- The staged effects fit the state the step began in: a memory write is within MEM_SIZE, and a push is the next
index, on a call stack that is not full. -/
def Effects.Admissible (e : Effects) (s : State) : Prop :=
  (∀ a v, e.mem = some (a, v) → a.toNat < s.cfg.memSize) ∧
  (∀ v, e.stack = some (.push v) → s.stackFull = false ∧ v = s.pc + 1)

/-- What the invariant needs of an execution: its effects are admissible, and its fault is none of FETCH. -/
def Execution.Sound (x : Execution) (s : State) : Prop :=
  match x with
  | .stage e => e.Admissible s
  | .raise k _ => k ≠ .fetchOutOfRange
  | .wait => True

theorem Effects.admissible_of_none {e : Effects} (s : State) (hm : e.mem = none) (hs : e.stack = none) :
    e.Admissible s :=
  ⟨fun _ _ h => by simp [hm] at h, fun _ h => by simp [hs] at h⟩

theorem raise_sound {k : FaultKind} (hk : k ≠ .fetchOutOfRange) (consumed : Bool) (s : State) :
    (Execution.raise k consumed).Sound s := hk

theorem stageReg_sound (d : RegIdx) (v : Word) (s : State) : (stageReg d v).Sound s :=
  Effects.admissible_of_none s rfl rfl

theorem stageJump_sound (p : Word) (s : State) : (stageJump p).Sound s :=
  Effects.admissible_of_none s rfl rfl

theorem popJump_sound (s : State) : (popJump s).Sound s := by
  unfold popJump
  split
  · exact raise_sound (by decide) _ s
  · exact ⟨nofun, nofun⟩

theorem pushJump_sound (b : RegIdx) (imm : Word) (s : State) : (pushJump b imm s).Sound s := by
  unfold pushJump
  split
  · exact raise_sound (by decide) _ s
  · rename_i hfull
    refine ⟨nofun, fun v h => ?_⟩
    cases h
    exact ⟨Bool.eq_false_of_not_eq_true hfull, addWord_eq _ _⟩

theorem readItem_sound (d : RegIdx) (s : State) : (readItem d s).Sound s := by
  unfold readItem
  split
  · trivial
  · exact raise_sound (by decide) _ s
  · exact Effects.admissible_of_none s rfl rfl

theorem storeCell_sound (f0 f1 : RegIdx) (imm : Word) (s : State) : (storeCell f0 f1 imm s).Sound s := by
  simp only [storeCell]
  split
  · rename_i hin
    refine ⟨fun a v h => ?_, nofun⟩
    cases h
    exact of_decide_eq_true hin
  · exact raise_sound (by decide) _ s

theorem loadCell_sound (d b : RegIdx) (imm : Word) (s : State) : (loadCell d b imm s).Sound s := by
  simp only [loadCell]
  split
  · exact stageReg_sound _ _ s
  · exact raise_sound (by decide) _ s

theorem divideImm_sound (d a : RegIdx) (imm : Word) (s : State) : (divideImm d a imm s).Sound s := by
  unfold divideImm
  split
  · exact raise_sound (by decide) _ s
  · exact stageReg_sound _ _ s

theorem jumpIfPositive_sound (c b : RegIdx) (imm : Word) (s : State) : (jumpIfPositive c b imm s).Sound s := by
  unfold jumpIfPositive
  split
  · exact stageJump_sound _ s
  · exact Effects.admissible_of_none s rfl rfl

theorem divideChain_sound (q r s1 s2 s3 s4 : RegIdx) (s : State) : (divideChain q r s1 s2 s3 s4 s).Sound s := by
  unfold divideChain
  split
  · exact raise_sound (by decide) _ s
  · exact Effects.admissible_of_none s rfl rfl

/-- The execution of every instruction is sound. The instructions with no case of their own stage one register write. -/
theorem executionOf_sound (i : Instr) (s : State) : (executionOf i s).Sound s := by
  cases i
  case nop => exact Effects.admissible_of_none s rfl rfl
  case print => exact Effects.admissible_of_none s rfl rfl
  case shuf => exact Effects.admissible_of_none s rfl rfl
  case ret => exact popJump_sound s
  case read => exact readItem_sound _ s
  case jmp => exact stageJump_sound _ s
  case call => exact pushJump_sound _ _ s
  case st => exact storeCell_sound _ _ _ s
  case ld => exact loadCell_sound _ _ _ s
  case divi => exact divideImm_sound _ _ _ s
  case div => exact divideChain_sound _ _ _ _ _ _ s
  case jgtz => exact jumpIfPositive_sound _ _ _ s
  all_goals exact stageReg_sound _ _ s

/-! ### Each operation of the engine keeps the invariant -/

/-- The staged memory write keeps memory canonical and within MEM_SIZE. -/
theorem State.commitMem_keeps_memory {s : State} {w : Option (Word × Word)} (hwf : s.mem.wf)
    (hin : ∀ c ∈ s.mem, c.1 < s.cfg.memSize) (hw : ∀ a v, w = some (a, v) → a.toNat < s.cfg.memSize) :
    (s.commitMem w).mem.wf ∧ ∀ c ∈ (s.commitMem w).mem, c.1 < s.cfg.memSize := by
  rcases w with _ | ⟨a, v⟩
  · exact ⟨hwf, hin⟩
  · refine ⟨Memory.wf_write hwf _ _, fun c hc => ?_⟩
    rcases Memory.mem_write hc with rfl | hc
    · exact hw a v rfl
    · exact hin c hc

theorem State.stackFits_iff (s : State) :
    s.stackFits = true ↔ ∀ n, s.cfg.stackDepth = .finite n → s.stack.length ≤ n := by
  unfold State.stackFits
  split <;> simp_all

theorem State.stackFull_eq_false_iff (s : State) :
    s.stackFull = false ↔ ∀ n, s.cfg.stackDepth = .finite n → s.stack.length ≠ n := by
  unfold State.stackFull
  split <;> simp_all

/-- The staged stack operation keeps the call stack within STACK_DEPTH and its entries return addresses 1 to N. -/
theorem State.commitStack_keeps_stack {s : State} {op : Option StackOp} (hfits : s.stackFits = true)
    (hret : ∀ v ∈ s.stack, 0 < v.toNat ∧ v.toNat ≤ s.progLength)
    (hpush : ∀ v, op = some (.push v) → s.stackFull = false ∧ 0 < v.toNat ∧ v.toNat ≤ s.progLength) :
    (s.commitStack op).stackFits = true ∧ ∀ v ∈ (s.commitStack op).stack, 0 < v.toNat ∧ v.toNat ≤ s.progLength := by
  rw [State.stackFits_iff] at hfits ⊢
  rcases op with _ | v | _
  · exact ⟨hfits, hret⟩
  · obtain ⟨hfull, hv⟩ := hpush v rfl
    rw [State.stackFull_eq_false_iff] at hfull
    exact ⟨fun n hn => Nat.lt_of_le_of_ne (hfits n hn) (hfull n hn), List.forall_mem_cons.2 ⟨hv, hret⟩⟩
  · refine ⟨fun n hn => ?_, fun v hv => hret v (List.mem_of_mem_tail hv)⟩
    have hlen : s.stack.tail.length ≤ s.stack.length := by simp
    exact hlen.trans (hfits n hn)

/-- The address after an index below N is a return address: N is below 2^32, so the sum does not wrap. -/
theorem pc_succ_is_return_address {s : State} (hprog : programWellFormed s.prog = true)
    (hpc : s.pc.toNat < s.progLength) : 0 < (s.pc + 1).toNat ∧ (s.pc + 1).toNat ≤ s.progLength := by
  have hN : s.progLength ≤ 4294967295 := of_decide_eq_true hprog
  have hadd : (s.pc + 1).toNat = s.pc.toNat + 1 := by
    rw [BitVec.toNat_add, show (1 : Word).toNat = 1 from rfl]
    omega
  omega

/-- COMMIT of admissible effects, at an index of the program. -/
theorem State.commit_keeps_inv {s : State} {e : Effects} (h : s.Inv) (hpc : s.pc.toNat < s.progLength)
    (he : e.Admissible s) : (s.commit e).Inv := by
  obtain ⟨hcfg, hprog, hwf, hin, hfits, hret, hrest⟩ := h
  obtain ⟨hmem, hpush⟩ := he
  obtain ⟨hwf', hin'⟩ := State.commitMem_keeps_memory hwf hin hmem
  obtain ⟨hfits', hret'⟩ := State.commitStack_keeps_stack hfits hret fun v hv => by
    obtain ⟨hfull, rfl⟩ := hpush v hv
    exact ⟨hfull, pc_succ_is_return_address hprog hpc⟩
  have hfits'' : (s.commit e).stackFits = true := by
    simpa [State.stackFits] using hfits'
  simp only [State.Inv, State.progLength, State.commit_cfg, State.commit_prog, State.commit_mem, State.commit_stack,
    State.commit_pc, State.commit_runState, State.commit_fault]
  exact ⟨hcfg, hprog, hwf', hin', hfits'', hret', hrest⟩

/-- ADVANCE of a Running state to any target: the halt test settles RUNSTATE, and no fault is recorded. -/
theorem State.advance_keeps_inv {s : State} (h : s.Inv) (hr : s.runState = .running) (p : Option Word) :
    (s.advance p).Inv := by
  obtain ⟨hcfg, hprog, hwf, hin, hfits, hret, -, -, hfault, -⟩ := h
  have hnone : s.fault = none := by simpa [hr] using hfault
  refine ⟨hcfg, hprog, hwf, hin, hfits, hret, ?_, ?_, ?_, ?_⟩
  · simp [hr, State.progLength]
  · simp [hr, State.progLength]
  · simp only [State.advance_fault, hnone, State.advance_runState, hr]
    split <;> simp
  · simp [hnone]

/-- Fault entry, of a kind that is FetchOutOfRange exactly beyond N. -/
theorem State.takeFault_keeps_inv {s : State} {k : FaultKind} (h : s.Inv)
    (hk : k = .fetchOutOfRange ↔ s.progLength < s.pc.toNat) (d : Decoded) : (s.takeFault k d).Inv := by
  obtain ⟨hcfg, hprog, hwf, hin, hfits, hret, -⟩ := h
  refine ⟨hcfg, hprog, hwf, hin, hfits, hret, nofun, nofun, by simp, fun f hf => ?_⟩
  cases hf
  exact ⟨rfl, hk⟩

/-- Fault entry at an index of the program, of any kind but FETCH's. -/
theorem State.takeFault_keeps_inv_of_lt {s : State} {k : FaultKind} (h : s.Inv) (hpc : s.pc.toNat < s.progLength)
    (hk : k ≠ .fetchOutOfRange) (d : Decoded) : (s.takeFault k d).Inv :=
  State.takeFault_keeps_inv h (iff_of_false hk (by omega)) d

/-- The invariant does not speak of the input channel. -/
theorem State.consumeInput_keeps_inv {s : State} (h : s.Inv) (c : Bool) : (s.consumeInput c).Inv := by
  cases c
  · exact h
  · exact h

/-! ### One instruction, one step -/

/-- An instruction that runs at an index of the program keeps the invariant. -/
theorem Ran.keeps_inv {i : Instr} {s t : State} (hran : Ran i s t) (h : s.Inv) (hr : s.runState = .running)
    (hpc : s.pc.toNat < s.progLength) : t.Inv := by
  have hsound := executionOf_sound i s
  cases hran with
  | guarded _ => exact State.takeFault_keeps_inv_of_lt h hpc (by decide) _
  | raised k c _ he =>
    rw [he] at hsound
    exact State.takeFault_keeps_inv_of_lt (State.consumeInput_keeps_inv h c) (by simpa [State.progLength] using hpc) hsound _
  | waited _ _ => exact h
  | committed e _ he =>
    rw [he] at hsound
    exact State.advance_keeps_inv (State.commit_keeps_inv h hpc hsound) (by simpa using hr) _

theorem State.fetchWord_eq_none_iff (s : State) : s.fetchWord = none ↔ s.progLength ≤ s.pc.toNat :=
  List.getElem?_eq_none_iff

theorem State.pc_lt_of_fetchWord {s : State} {w : InstrWord} (h : s.fetchWord = some w) :
    s.pc.toNat < s.progLength :=
  (List.getElem?_eq_some_iff.1 h).1

/-- A Running state of a run is never at N: a step that reaches N halts (R132). -/
theorem State.Inv.pc_ne_progLength {s : State} (h : s.Inv) (hr : s.runState = .running) :
    s.pc.toNat ≠ s.progLength := by
  obtain ⟨-, -, -, -, -, -, hrun, -⟩ := h
  exact hrun hr

/-- By what the step does: none, a fault of FETCH, a fault of DECODE or DISPATCH, or one instruction. -/
theorem step_keeps_inv {s t : State} (h : s.Inv) (hst : step s = .next t) : t.Inv := by
  rcases step_cases s with ⟨-, hs⟩ | ⟨hr, hw, hs⟩ | ⟨w, d, -, hw, -, hs⟩ | ⟨w, i, hr, hw, -, hs⟩
  · obtain rfl := Host.Outcome.next.inj (hs.symm.trans hst)
    exact h
  · obtain rfl := Host.Outcome.next.inj (hs.symm.trans hst)
    have hne := h.pc_ne_progLength hr
    have hle := s.fetchWord_eq_none_iff.1 hw
    exact State.takeFault_keeps_inv h (iff_of_true rfl (by omega)) _
  · obtain rfl := Host.Outcome.next.inj (hs.symm.trans hst)
    exact State.takeFault_keeps_inv_of_lt h (State.pc_lt_of_fetchWord hw) (by decide) _
  · exact (ran_of_exec (hs.symm.trans hst)).keeps_inv h hr (State.pc_lt_of_fetchWord hw)

/-- Settles O21: each operation a step is made of keeps the invariant. -/
theorem stepKeepsTheInvariant : Obligations.StepKeepsTheInvariant :=
  fun _ _ => step_keeps_inv

/-! ### The creation of a run -/

/-- An empty program is Halted at N = 0, any other Running below N; memory and the call stack are empty. -/
theorem State.create_inv {cfg : Config} {prog : List InstrWord} (hcfg : cfg.wellFormed = true)
    (hprog : programWellFormed prog = true) (input : List InputItem) : (State.create cfg prog input).Inv := by
  have hfits : (State.create cfg prog input).stackFits = true :=
    (State.stackFits_iff _).2 fun _ _ => Nat.zero_le _
  refine ⟨hcfg, hprog, Memory.wf_nil, nofun, hfits, nofun, ?_⟩
  rcases prog with _ | ⟨w, ws⟩
  · simp [State.create, State.progLength]
  · simp [State.create, State.progLength]

/-- Settles O22: `State.reset` is itself a creation, with an empty program. -/
theorem creationMeetsTheInvariant : Obligations.CreationMeetsTheInvariant :=
  ⟨fun _ _ input hcfg hprog => State.create_inv hcfg hprog input, State.create_inv (by decide) (by decide) []⟩

end Sys2Proof.Machine
end

section
/-!
PROOFS. What no step changes (the run inputs), what some steps do not touch (the call stack) and what no step looks at
(ICOUNT and FAULT). The last two are one argument: a change of the state a step begins in that the step does not see
comes out again in the state it ends in (`Unseen`).
-/

namespace Sys2Proof.Machine

/-! ### A step, from what FETCH and DECODE answer -/

theorem step_of_not_running {s : State} (hr : s.runState ≠ .running) : step s = .next s := by
  rcases step_cases s with ⟨-, hs⟩ | ⟨hr', -⟩ | ⟨_, _, hr', -⟩ | ⟨_, _, hr', -⟩
  · exact hs
  all_goals exact absurd hr' hr

theorem step_of_no_word {s : State} (hr : s.runState = .running) (hw : s.fetchWord = none) :
    step s = .next (s.takeFault .fetchOutOfRange Decoded.zero) := by
  simp [step, State.frontEnd, hr, hw]

theorem step_of_unknownFamily {s : State} {w : InstrWord} {fam opc : Byte} (hr : s.runState = .running)
    (hw : s.fetchWord = some w) (hd : decode w = .unknownFamily fam opc) :
    step s = .next (s.takeFault .unknownFamilyOrOpcode ⟨fam, opc, Fields.zero⟩) := by
  simp [step, State.frontEnd, hr, hw, hd]

theorem step_of_unknownOpcode {s : State} {w : InstrWord} {d : Decoded} (hr : s.runState = .running)
    (hw : s.fetchWord = some w) (hd : decode w = .unknownOpcode d) :
    step s = .next (s.takeFault .unknownFamilyOrOpcode d) := by
  simp [step, State.frontEnd, hr, hw, hd]

theorem step_of_instr {s : State} {w : InstrWord} {i : Instr} (hr : s.runState = .running)
    (hw : s.fetchWord = some w) (hd : decode w = .instr i) : step s = exec i s := by
  simp only [step, frontEnd_run hr hw hd]

/-- The write guard (R127): a destination 0 or 1 is a fault, whatever the instruction and the state. -/
theorem faults_of_guarded_destination {i : Instr} (s : State) {d : RegIdx} (hd : d ∈ destinations i)
    (hg : isGuarded d = true) :
    Faults i s .illegalRegisterWrite i.toDecoded.family i.toDecoded.opcode i.toDecoded.f :=
  (exec_eq_runInstr i s).trans (runInstr_guarded (List.any_eq_true.2 ⟨d, hd, hg⟩))

/-! ### What COMMIT does to a field depends on that field alone -/

@[ext] theorem State.ext {s t : State} (cfg : s.cfg = t.cfg) (prog : s.prog = t.prog) (gpr : s.gpr = t.gpr)
    (pc : s.pc = t.pc) (mem : s.mem = t.mem) (stack : s.stack = t.stack) (runState : s.runState = t.runState)
    (fault : s.fault = t.fault) (icount : s.icount = t.icount) (input : s.input = t.input)
    (output : s.output = t.output) : s = t := by
  cases s
  cases t
  simp_all

theorem State.writeReg_gpr_congr {s t : State} (h : s.gpr = t.gpr) (r : RegIdx) (v : Word) :
    (s.writeReg r v).gpr = (t.writeReg r v).gpr := by
  unfold State.writeReg
  split
  · exact h
  · simp only [h]

theorem State.commitRegs_gpr_congr {s t : State} (h : s.gpr = t.gpr) (ws : List (RegIdx × Word)) :
    (s.commitRegs ws).gpr = (t.commitRegs ws).gpr := by
  induction ws generalizing s t with
  | nil => exact h
  | cons w ws ih => exact ih (State.writeReg_gpr_congr h w.1 w.2)

theorem State.commitMem_mem_congr {s t : State} (h : s.mem = t.mem) (w : Option (Word × Word)) :
    (s.commitMem w).mem = (t.commitMem w).mem := by
  rcases w with _ | ⟨a, v⟩
  · exact h
  · simp [h]

theorem State.commitStack_stack_congr {s t : State} (h : s.stack = t.stack) (op : Option StackOp) :
    (s.commitStack op).stack = (t.commitStack op).stack := by
  rcases op with _ | v | _
  · exact h
  · simp [h]
  · simp [h]

theorem State.consumeInput_input_congr {s t : State} (h : s.input = t.input) (c : Bool) :
    (s.consumeInput c).input = (t.consumeInput c).input := by
  cases c
  · exact h
  · simp [h]

theorem State.commitOutput_output_congr {s t : State} (h : s.output = t.output) (out : Option Word) :
    (s.commitOutput out).output = (t.commitOutput out).output := by
  cases out
  · exact h
  · simp [h]

/-- COMMIT from a state that differs in the call stack, ICOUNT and FAULT only. -/
theorem State.commit_of_other_status (s : State) (k : List Word) (n : Nat) (f : Option Snapshot) (e : Effects) :
    State.commit { s with stack := k, icount := n, fault := f } e =
      { s.commit e with
        stack := (State.commitStack { s with stack := k } e.stack).stack
        icount := n + 1
        fault := f } := by
  ext1
  case gpr =>
    rw [State.commit_gpr, State.commit_gpr]
    exact State.commitRegs_gpr_congr (by rfl) _
  case mem =>
    rw [State.commit_mem, State.commit_mem]
    exact State.commitMem_mem_congr (by rfl) _
  case stack =>
    rw [State.commit_stack]
    exact State.commitStack_stack_congr (by rfl) _
  case input =>
    rw [State.commit_input, State.commit_input]
    exact State.consumeInput_input_congr (by rfl) _
  case output =>
    rw [State.commit_output, State.commit_output]
    exact State.commitOutput_output_congr (by rfl) _
  all_goals simp

theorem State.commit_setStack (s : State) (k : List Word) {e : Effects} (he : e.stack = none) :
    State.commit { s with stack := k } e = { s.commit e with stack := k } := by
  rw [State.commit_of_other_status s k s.icount s.fault e, he]
  ext1 <;> simp

theorem State.commit_addIcount (s : State) (n : Nat) (e : Effects) :
    State.commit { s with icount := s.icount + n } e = { s.commit e with icount := (s.commit e).icount + n } := by
  rw [State.commit_of_other_status s s.stack (s.icount + n) s.fault e]
  ext1 <;> simp [Nat.add_right_comm]

theorem State.commit_setFault (s : State) (f : Option Snapshot) (e : Effects) :
    State.commit { s with fault := f } e = { s.commit e with fault := f } := by
  rw [State.commit_of_other_status s s.stack s.icount f e]
  ext1 <;> simp

/-! ### A change the step does not see -/

/-- Beginning the step of `s` in `φ s` instead shows as `ψ` in the state it ends in: `φ` leaves alone what FETCH looks
at and what the instruction about to run reads, and each of the ways a step ends (no step, a fault, COMMIT and ADVANCE)
takes `φ` to `ψ`. -/
structure Unseen (φ ψ : State → State) (s : State) : Prop where
  runState : (φ s).runState = s.runState
  fetchWord : (φ s).fetchWord = s.fetchWord
  execution : ∀ i, AboutToRun s i → executionOf i (φ s) = executionOf i s
  stay : φ s = ψ s
  fault : ∀ c k d, ((φ s).consumeInput c).takeFault k d = ψ ((s.consumeInput c).takeFault k d)
  commit : ∀ i e, AboutToRun s i → executionOf i s = .stage e →
    ((φ s).commit e).advance e.target = ψ ((s.commit e).advance e.target)

theorem Unseen.fault_entry {φ ψ : State → State} {s : State} (h : Unseen φ ψ s) (k : FaultKind) (d : Decoded) :
    (φ s).takeFault k d = ψ (s.takeFault k d) := h.fault false k d

/-- The instruction about to run, by the four things it can do. -/
theorem Unseen.exec_eq {φ ψ : State → State} {s t : State} {i : Instr} (h : Unseen φ ψ s) (hi : AboutToRun s i)
    (hran : Ran i s t) : exec i (φ s) = .next (ψ t) := by
  have hx := h.execution i hi
  rw [exec_eq_runInstr]
  cases hran with
  | guarded hg => rw [runInstr_guarded hg, h.fault_entry]
  | raised k c hp he => rw [runInstr_raise hp (hx.trans he), h.fault]
  | waited hp he => rw [runInstr_wait hp (hx.trans he), h.stay]
  | committed e hp he => rw [runInstr_stage hp (hx.trans he), h.commit i e hi he]

/-- The whole step, by what FETCH and DECODE answer. -/
theorem Unseen.step_eq {φ ψ : State → State} {s t : State} (h : Unseen φ ψ s) (hst : step s = .next t) :
    step (φ s) = .next (ψ t) := by
  by_cases hr : s.runState = .running
  · have hr' := h.runState.trans hr
    rcases hw : s.fetchWord with _ | w
    · rw [step_of_no_word hr hw] at hst
      cases hst
      rw [step_of_no_word hr' (h.fetchWord.trans hw), h.fault_entry]
    · have hw' := h.fetchWord.trans hw
      rcases hd : decode w with i | ⟨fam, opc⟩ | d
      · rw [step_of_instr hr hw hd] at hst
        rw [step_of_instr hr' hw' hd]
        exact h.exec_eq ⟨w, ⟨hr, hw⟩, hd⟩ (ran_of_exec hst)
      · rw [step_of_unknownFamily hr hw hd] at hst
        cases hst
        rw [step_of_unknownFamily hr' hw' hd, h.fault_entry]
      · rw [step_of_unknownOpcode hr hw hd] at hst
        cases hst
        rw [step_of_unknownOpcode hr' hw' hd, h.fault_entry]
  · rw [step_of_not_running hr] at hst
    cases hst
    rw [step_of_not_running (h.runState ▸ hr), h.stay]

/-! ### The run inputs -/

/-- None of the four things an instruction can do touches the program image or the configuration. -/
theorem Ran.keeps_run_inputs {i : Instr} {s t : State} (h : Ran i s t) : t.prog = s.prog ∧ t.cfg = s.cfg := by
  cases h with
  | guarded _ => exact ⟨rfl, rfl⟩
  | raised k c _ _ => simp
  | waited _ _ => exact ⟨rfl, rfl⟩
  | committed e _ _ => simp

/-- Settles O25: no step, fault entry and the four things an instruction can do keep the run inputs. -/
theorem runInputsNeverChange : Obligations.RunInputsNeverChange := by
  intro s t hst
  rcases step_cases s with ⟨-, hs⟩ | ⟨-, -, hs⟩ | ⟨w, d, -, -, -, hs⟩ | ⟨w, i, -, -, -, hs⟩
  · cases hs.symm.trans hst
    exact ⟨rfl, rfl⟩
  · cases hs.symm.trans hst
    exact ⟨rfl, rfl⟩
  · cases hs.symm.trans hst
    exact ⟨rfl, rfl⟩
  · exact (ran_of_exec (hs.symm.trans hst)).keeps_run_inputs

/-! ### The call stack -/

/-- Only RET looks at the call stack, and CALL at its depth. -/
theorem executionOf_setStack {i : Instr} (hcall : ∀ b imm, i ≠ .call b imm) (hret : i ≠ .ret) (s : State)
    (k : List Word) : executionOf i { s with stack := k } = executionOf i s := by
  cases i with
  | call b imm => exact absurd rfl (hcall b imm)
  | ret => exact absurd rfl hret
  | _ => rfl

/-- Only CALL and RET stage a stack operation. -/
theorem staged_stack_eq_none {i : Instr} {s : State} {e : Effects} (hcall : ∀ b imm, i ≠ .call b imm)
    (hret : i ≠ .ret) (he : executionOf i s = .stage e) : e.stack = none := by
  cases i with
  | call b imm => exact absurd rfl (hcall b imm)
  | ret => exact absurd rfl hret
  | read d =>
    simp only [executionOf, readItem] at he
    split at he <;> cases he
    rfl
  | st f0 f1 imm =>
    simp only [executionOf, storeCell] at he
    split at he <;> cases he
    rfl
  | ld d b imm =>
    simp only [executionOf, loadCell] at he
    split at he <;> cases he
    rfl
  | divi d a imm =>
    simp only [executionOf, divideImm] at he
    split at he <;> cases he
    rfl
  | div q r s1 s2 s3 s4 =>
    simp only [executionOf, divideChain] at he
    split at he <;> cases he
    rfl
  | jgtz c b imm =>
    simp only [executionOf, jumpIfPositive] at he
    split at he <;> cases he <;> rfl
  | _ =>
    cases he
    rfl

theorem unseen_setStack {s : State} (hcall : ∀ b imm, ¬ AboutToRun s (.call b imm)) (hret : ¬ AboutToRun s .ret)
    (k : List Word) : Unseen (fun u => { u with stack := k }) (fun u => { u with stack := k }) s where
  runState := rfl
  fetchWord := rfl
  execution i hi :=
    executionOf_setStack (fun b imm h => hcall b imm (h ▸ hi)) (fun h => hret (h ▸ hi)) s k
  stay := rfl
  fault c _ _ := by cases c <;> rfl
  commit i e hi he := by
    rw [State.commit_setStack s k
      (staged_stack_eq_none (fun b imm h => hcall b imm (h ▸ hi)) (fun h => hret (h ▸ hi)) he)]
    rfl

/-- Settles O27: with any stack `k` the step ends with `k`; with the stack it has, that says the step keeps it. -/
theorem onlyCallAndReturnAccessTheStack : Obligations.OnlyCallAndReturnAccessTheStack := by
  intro s t k hcall hret hst
  have hsame : step s = .next { t with stack := s.stack } := (unseen_setStack hcall hret s.stack).step_eq hst
  have hkeeps : t = { t with stack := s.stack } := Host.Outcome.next.inj (hst.symm.trans hsame)
  exact ⟨(congrArg State.stack hkeeps :), (unseen_setStack hcall hret k).step_eq hst⟩

/-! ### ICOUNT and FAULT -/

theorem executionOf_setIcount (i : Instr) (s : State) (n : Nat) :
    executionOf i { s with icount := n } = executionOf i s := by
  cases i <;> rfl

theorem executionOf_setFault (i : Instr) (s : State) (f : Option Snapshot) :
    executionOf i { s with fault := f } = executionOf i s := by
  cases i <;> rfl

/-- ICOUNT is only ever counted up. -/
theorem unseen_addIcount (s : State) (n : Nat) :
    Unseen (fun u => { u with icount := u.icount + n }) (fun u => { u with icount := u.icount + n }) s where
  runState := rfl
  fetchWord := rfl
  execution i _ := executionOf_setIcount i s _
  stay := rfl
  fault c _ _ := by cases c <;> rfl
  commit _ e _ _ := by
    rw [State.commit_addIcount]
    rfl

/-- `f` in the place of FAULT, unless a fault has been recorded there. -/
def State.refault (f : Option Snapshot) (t : State) : State :=
  { t with fault := if t.runState = .faulted then t.fault else f }

theorem State.refault_of_ne {t : State} (h : t.runState ≠ .faulted) (f : Option Snapshot) :
    t.refault f = { t with fault := f } := by
  rw [State.refault, if_neg h]

@[simp] theorem State.refault_takeFault (s : State) (k : FaultKind) (d : Decoded) (f : Option Snapshot) :
    (s.takeFault k d).refault f = s.takeFault k d := by
  rw [State.refault, if_pos (State.takeFault_runState s k d)]

/-- ADVANCE halts or goes on; it never faults. -/
theorem State.advance_ne_faulted {s : State} (h : s.runState ≠ .faulted) (p : Option Word) :
    (s.advance p).runState ≠ .faulted := by
  rw [State.advance_runState]
  split
  · decide
  · exact h

/-- FAULT is overwritten by fault entry and otherwise carried along. -/
theorem unseen_setFault {s : State} (hr : s.runState = .running) (f : Option Snapshot) :
    Unseen (fun u => { u with fault := f }) (State.refault f) s where
  runState := rfl
  fetchWord := rfl
  execution i _ := executionOf_setFault i s f
  stay := (State.refault_of_ne (by simp [hr]) f).symm
  fault c _ _ := by
    rw [State.refault_takeFault]
    cases c <;> rfl
  commit _ e _ _ := by
    rw [State.refault_of_ne (State.advance_ne_faulted (by simp [hr]) _), State.commit_setFault]
    rfl

/-- Settles O29: a step sees neither a larger ICOUNT nor another FAULT. -/
theorem statusIsNotProgramVisible : Obligations.StatusIsNotProgramVisible :=
  fun s _ n f hr hst => ⟨(unseen_addIcount s n).step_eq hst, (unseen_setFault hr f).step_eq hst⟩

/-! ### The null register -/

/-- Settles O17: x[0] is not stored, and the guard comes before EXECUTE. -/
theorem nullRegisterReadsZero : Obligations.NullRegisterReadsZero :=
  ⟨State.readReg_zero, fun _ s hd => faults_of_guarded_destination s hd rfl⟩

end Sys2Proof.Machine
end

section
/-!
PROOFS. The memory array (20_memory.md): which steps do not touch it, by the same argument as for the call stack
(`Unseen`), and what a LD reads after a ST.
-/

namespace Sys2Proof.Machine

/-! ### Only ST and LD access memory -/

/-- Only ST and LD look at memory. -/
theorem executionOf_setMem {i : Instr} (hst : ∀ f0 f1 imm, i ≠ .st f0 f1 imm) (hld : ∀ d b imm, i ≠ .ld d b imm)
    (s : State) (m : Memory) : executionOf i { s with mem := m } = executionOf i s := by
  cases i with
  | st f0 f1 imm => exact absurd rfl (hst f0 f1 imm)
  | ld d b imm => exact absurd rfl (hld d b imm)
  | _ => rfl

/-- Only ST stages a memory write. The executions unfolded here are those that look at the state to choose what they
stage. -/
theorem staged_mem_eq_none {i : Instr} {s : State} {e : Effects} (hst : ∀ f0 f1 imm, i ≠ .st f0 f1 imm)
    (he : executionOf i s = .stage e) : e.mem = none := by
  cases i
  case st f0 f1 imm => exact absurd rfl (hst f0 f1 imm)
  case ret | read | call | ld | divi | jgtz | div =>
    simp only [executionOf, popJump, readItem, pushJump, loadCell, divideImm, jumpIfPositive, divideChain] at he
    split at he <;> cases he <;> rfl
  all_goals
    cases he
    rfl

theorem State.commit_setMem (s : State) (m : Memory) {e : Effects} (he : e.mem = none) :
    State.commit { s with mem := m } e = { s.commit e with mem := m } := by
  ext1
  case gpr =>
    rw [State.commit_gpr, State.commit_gpr]
    exact State.commitRegs_gpr_congr (by rfl) _
  case mem => rw [State.commit_mem, he, State.commitMem_none]
  case stack =>
    rw [State.commit_stack, State.commit_stack]
    exact State.commitStack_stack_congr (by rfl) _
  case input =>
    rw [State.commit_input, State.commit_input]
    exact State.consumeInput_input_congr (by rfl) _
  case output =>
    rw [State.commit_output, State.commit_output]
    exact State.commitOutput_output_congr (by rfl) _
  all_goals simp

theorem unseen_setMem {s : State} (hst : ∀ f0 f1 imm, ¬ AboutToRun s (.st f0 f1 imm))
    (hld : ∀ d b imm, ¬ AboutToRun s (.ld d b imm)) (m : Memory) :
    Unseen (fun u => { u with mem := m }) (fun u => { u with mem := m }) s where
  runState := rfl
  fetchWord := rfl
  execution i hi :=
    executionOf_setMem (fun f0 f1 imm h => hst f0 f1 imm (h ▸ hi)) (fun d b imm h => hld d b imm (h ▸ hi)) s m
  stay := rfl
  fault c _ _ := by cases c <;> rfl
  commit i e hi he := by
    rw [State.commit_setMem s m (staged_mem_eq_none (fun f0 f1 imm h => hst f0 f1 imm (h ▸ hi)) he)]
    rfl

/-- Settles O26: with any memory `m` the step ends with `m`; with the memory it has, that says the step keeps it. -/
theorem onlyLoadAndStoreAccessMemory : Obligations.OnlyLoadAndStoreAccessMemory := by
  intro s t m hst hld hstep
  have hsame : step s = .next { t with mem := s.mem } := (unseen_setMem hst hld s.mem).step_eq hstep
  have hkeeps : t = { t with mem := s.mem } := Host.Outcome.next.inj (hstep.symm.trans hsame)
  exact ⟨(congrArg State.mem hkeeps :), (unseen_setMem hst hld m).step_eq hstep⟩

/-! ### A load after a store -/

/-- ICOUNT counts an instruction only at COMMIT (R133). -/
theorem Ran.commits_of_icount {i : Instr} {s t : State} (h : Ran i s t) (hn : t.icount = s.icount + 1) :
    ∃ e, executionOf i s = .stage e ∧ t = (s.commit e).advance e.target := by
  cases h with
  | guarded _ => simp at hn
  | raised k c _ _ => simp at hn
  | waited _ _ => simp at hn
  | committed e _ he => exact ⟨e, he, rfl⟩

/-- What ST stages when its address is in range. -/
theorem storeCell_eq_stage {f0 f1 : RegIdx} {imm : Word} {s : State} {e : Effects}
    (h : storeCell f0 f1 imm s = .stage e) :
    e = { mem := some (s.effectiveAddress (stBase s.cfg.stRoles f0 f1) imm,
                       s.readReg (stData s.cfg.stRoles f0 f1)) } := by
  simp only [storeCell] at h
  split at h <;> cases h
  rfl

/-- What LD stages when its address is in range. -/
theorem loadCell_eq_stage {d b : RegIdx} {imm : Word} {s : State} {e : Effects} (h : loadCell d b imm s = .stage e) :
    e = { regs := [(d, s.mem.read (s.effectiveAddress b imm).toNat)] } := by
  simp only [loadCell] at h
  split at h <;> cases h
  rfl

/-- Memory after a ST that committed (R191). -/
theorem mem_of_st_commits {f0 f1 : RegIdx} {imm : Word} {s t : State} (hst : exec (.st f0 f1 imm) s = .next t)
    (hn : t.icount = s.icount + 1) :
    t.mem = s.mem.write (s.effectiveAddress (stBase s.cfg.stRoles f0 f1) imm).toNat
      (s.readReg (stData s.cfg.stRoles f0 f1)) := by
  obtain ⟨e, he, rfl⟩ := (ran_of_exec hst).commits_of_icount hn
  obtain rfl := storeCell_eq_stage he
  simp

/-- The destination after a LD that committed (R192). -/
theorem readReg_of_ld_commits {d b : RegIdx} {imm : Word} {s t : State} (hd : Writable d)
    (hld : exec (.ld d b imm) s = .next t) (hn : t.icount = s.icount + 1) :
    t.readReg d = s.mem.read (s.readReg b + imm).toNat := by
  obtain ⟨hd0, hd1⟩ := hd
  obtain ⟨e, he, rfl⟩ := (ran_of_exec hld).commits_of_icount hn
  obtain rfl := loadCell_eq_stage he
  rw [State.advance_readReg _ _ hd1, State.commit_readReg, State.commitRegs_cons, State.commitRegs_nil,
    State.readReg_writeReg_self s hd0 hd1, State.effectiveAddress, addWord_eq]

/-- Settles O44: the LD reads the memory the ST wrote, and equal cell numbers are equal 32-bit addresses. -/
theorem loadReturnsTheLatestStore : Obligations.LoadReturnsTheLatestStore := by
  intro s t u f0 f1 imm d b imm' hst hnt hd hld hnu
  rw [readReg_of_ld_commits hd hld hnu, mem_of_st_commits hst hnt, Memory.read_write]
  simp only [BitVec.toNat_inj]

end Sys2Proof.Machine
end

section
/-!
PROOFS. Encoding (30_encoding.md). The layer below gives, for any Layout Table row, how the encoder's sum and the
decoder's loop undo each other; the statements about words, instructions and steps follow from it.
-/

namespace Sys2Proof

open Sys2Proof.Machine

/-! ### The two fixed fields -/

theorem familyOf_eq (w : InstrWord) : familyOf w = w.extractLsb' 0 8 := by
  apply BitVec.eq_of_toNat_eq
  simp [familyOf]

theorem opcodeOf_eq (w : InstrWord) : opcodeOf w = w.extractLsb' 8 8 := by
  apply BitVec.eq_of_toNat_eq
  simp [opcodeOf, Nat.shiftRight_eq_div_pow]

theorem toNat_familyOf (w : InstrWord) : (familyOf w).toNat = w.toNat % 2 ^ 8 := by
  simp [familyOf]

theorem toNat_opcodeOf (w : InstrWord) : (opcodeOf w).toNat = w.toNat / 2 ^ 8 % 2 ^ 8 := by
  simp [opcodeOf]

/-! ### The Layout Table -/

theorem layoutTable_eq_none_iff : ∀ family : Nat, layoutTable family = none ↔ 5 < family
  | 0 | 1 | 2 | 3 | 4 | 5 => by decide
  | n + 6 => iff_of_true rfl (by omega)

/-- A known family consumes the two fixed fields and its operand fields (R83). -/
theorem consumedBits_of_layout {family : Nat} {widths : List Nat} (h : layoutTable family = some widths) :
    consumedBits family = 16 + widths.sum := by
  unfold layoutTable at h
  split at h <;> cases h <;> rfl

/-- No row of the Layout Table is longer than a word. -/
theorem layout_sum_le {family : Nat} {widths : List Nat} (h : layoutTable family = some widths) :
    widths.sum ≤ 48 := by
  unfold layoutTable at h
  split at h <;> cases h <;> decide

theorem layout_length_le {family : Nat} {widths : List Nat} (h : layoutTable family = some widths) :
    widths.length ≤ 6 := by
  unfold layoutTable at h
  split at h <;> cases h <;> decide

theorem layout_width_le {family : Nat} {widths : List Nat} (h : layoutTable family = some widths) :
    ∀ n ∈ widths, n ≤ 32 := by
  unfold layoutTable at h
  split at h <;> cases h <;> decide

/-! ### The six fields as a list -/

/-- The decoder's six fields, read back: fields beyond the extracted ones are 0 (R84). -/
theorem getD_toList_fieldsOfList (l : List Word) {k : Nat} (hk : k < 6) :
    (fieldsOfList l).toList.getD k 0 = l.getD k 0 := by
  interval_cases k <;> rfl

theorem fieldsOfList_eq {l : List Word} {f : Fields} (h : ∀ k, l.getD k 0 = f.toList.getD k 0) :
    fieldsOfList l = f := by
  simp only [fieldsOfList, h]
  rfl

/-! ### The encoder's sum -/

@[simp] theorem packFields_no_widths (pos : Nat) (fields : List Word) : packFields pos [] fields = 0 := rfl

@[simp] theorem packFields_no_fields (pos : Nat) (widths : List Nat) : packFields pos widths [] = 0 := by
  cases widths <;> rfl

@[simp] theorem packFields_cons (pos n : Nat) (ns : List Nat) (f : Word) (fs : List Word) :
    packFields pos (n :: ns) (f :: fs) = f.toNat * 2 ^ pos + packFields (pos + n) ns fs := rfl

/-- The sum of R88, term by term: f[k] at the bit where the widths before it end. -/
theorem packFields_eq_sum (pos : Nat) (widths : List Nat) (fields : List Word) :
    packFields pos widths fields = ((List.range widths.length).map fun k =>
      (fields.getD k 0).toNat * 2 ^ (pos + (widths.take k).sum)).sum := by
  induction widths generalizing pos fields with
  | nil => simp
  | cons n ns ih =>
    cases fields with
    | nil => simp
    | cons f fs =>
      rw [packFields_cons, ih, List.length_cons, List.range_succ_eq_map]
      simp [Function.comp_def, Nat.add_assoc]

/-- The sum looks at no field beyond the declared ones. -/
theorem packFields_congr (pos : Nat) {widths : List Nat} {fields fields' : List Word}
    (h : ∀ k < widths.length, fields.getD k 0 = fields'.getD k 0) :
    packFields pos widths fields = packFields pos widths fields' := by
  rw [packFields_eq_sum, packFields_eq_sum]
  congr 1
  refine List.map_congr_left fun k hk => ?_
  rw [h k (List.mem_range.1 hk)]

theorem packFields_eq_mul (pos : Nat) (widths : List Nat) (fields : List Word) :
    packFields pos widths fields = 2 ^ pos * packFields 0 widths fields := by
  induction widths generalizing pos fields with
  | nil => simp
  | cons n ns ih =>
    cases fields with
    | nil => simp
    | cons f fs =>
      rw [packFields_cons, packFields_cons, ih (pos + n), ih (0 + n)]
      ring

/-- One field at the bottom, the others above it. -/
theorem packFields_zero_cons (n : Nat) (ns : List Nat) (f : Word) (fs : List Word) :
    packFields 0 (n :: ns) (f :: fs) = f.toNat + 2 ^ n * packFields 0 ns fs := by
  rw [packFields_cons, packFields_eq_mul (0 + n)]
  simp

theorem packFields_lt {widths : List Nat} {fields : List Word} (h : fieldsFit widths fields = true) :
    packFields 0 widths fields < 2 ^ widths.sum := by
  induction widths generalizing fields with
  | nil => simp
  | cons n ns ih =>
    cases fields with
    | nil => simp
    | cons f fs =>
      simp only [fieldsFit, Bool.and_eq_true, decide_eq_true_eq] at h
      obtain ⟨hf, hfs⟩ := h
      rw [packFields_zero_cons, List.sum_cons, pow_add]
      calc f.toNat + 2 ^ n * packFields 0 ns fs
          < 2 ^ n + 2 ^ n * packFields 0 ns fs := by omega
        _ = 2 ^ n * (packFields 0 ns fs + 1) := by ring
        _ ≤ 2 ^ n * 2 ^ ns.sum := Nat.mul_le_mul_left _ (ih hfs)

/-! ### The decoder's loop -/

theorem getD_splitFields_zero (widths : List Nat) (k : Nat) : (splitFields widths 0).getD k 0 = 0 := by
  induction widths generalizing k with
  | nil => rfl
  | cons n ns ih =>
    rw [splitFields, Nat.zero_mod, Nat.zero_div]
    cases k with
    | zero => rfl
    | succ k => simpa using ih k

/-- The loop undoes the sum: every declared field comes back, and the others are the sentinel 0. -/
theorem getD_splitFields_packFields {widths : List Nat} {fields : List Word} (h : fieldsFit widths fields = true)
    (k : Nat) : (splitFields widths (packFields 0 widths fields)).getD k 0 = fields.getD k 0 := by
  induction widths, fields using fieldsFit.induct generalizing k with
  | case1 n ns f fs ih =>
    simp only [fieldsFit, Bool.and_eq_true, decide_eq_true_eq] at h
    obtain ⟨hf, hfs⟩ := h
    rw [packFields_zero_cons, splitFields, Nat.add_mul_mod_self_left, Nat.mod_eq_of_lt hf,
      Nat.add_mul_div_left _ _ (by positivity), Nat.div_eq_of_lt hf, Nat.zero_add]
    cases k with
    | zero => simp
    | succ k => simpa using ih hfs k
  | case2 f fs ih =>
    simp only [fieldsFit, Bool.and_eq_true, decide_eq_true_eq] at h
    obtain ⟨rfl, hfs⟩ := h
    cases k with
    | zero => rfl
    | succ k => simpa [splitFields] using ih hfs k
  | case3 widths =>
    rw [packFields_no_fields, getD_splitFields_zero, List.getD_nil]

/-- The sum undoes the loop, on the bits the widths cover. -/
theorem packFields_splitFields {widths : List Nat} (h : ∀ n ∈ widths, n ≤ 32) (rest : Nat) :
    packFields 0 widths (splitFields widths rest) = rest % 2 ^ widths.sum := by
  induction widths generalizing rest with
  | nil => simp [Nat.mod_one]
  | cons n ns ih =>
    obtain ⟨hn, hns⟩ := List.forall_mem_cons.1 h
    have hlt : rest % 2 ^ n < 2 ^ 32 :=
      (Nat.mod_lt _ (by positivity)).trans_le (Nat.pow_le_pow_right (by decide) hn)
    rw [splitFields, packFields_zero_cons, ih hns, BitVec.toNat_ofNat, Nat.mod_eq_of_lt hlt, List.sum_cons, pow_add,
      Nat.mod_mul]

/-- The loop looks at no bit beyond the widths. -/
theorem splitFields_mod (widths : List Nat) (rest : Nat) :
    splitFields widths (rest % 2 ^ widths.sum) = splitFields widths rest := by
  induction widths generalizing rest with
  | nil => rfl
  | cons n ns ih =>
    rw [splitFields, splitFields, List.sum_cons, pow_add, Nat.mod_mul_right_mod, Nat.mod_mul_right_div_self, ih]

/-- One turn of the loop on a word takes the next `n` bits. -/
theorem splitFields_word (w : InstrWord) (lo n : Nat) (ns : List Nat) :
    splitFields (n :: ns) (w.toNat / 2 ^ lo) =
      (w.extractLsb' lo n).setWidth 32 :: splitFields ns (w.toNat / 2 ^ (lo + n)) := by
  rw [splitFields, Nat.div_div_eq_div_mul, ← pow_add]
  congr 1
  apply BitVec.eq_of_toNat_eq
  simp [Nat.shiftRight_eq_div_pow]

/-! ### The decode of a word and the encode of a tuple -/

theorem decodeFields_of_layout {w : InstrWord} {widths : List Nat}
    (h : layoutTable (w.extractLsb' 0 8).toNat = some widths) :
    decodeFields w = some ⟨w.extractLsb' 0 8, w.extractLsb' 8 8,
      fieldsOfList (splitFields widths (w.toNat / 2 ^ 16))⟩ := by
  rw [decodeFields, familyOf_eq, opcodeOf_eq, h]
  rfl

theorem decodeFields_of_unknown {w : InstrWord} (h : layoutTable (w.extractLsb' 0 8).toNat = none) :
    decodeFields w = none := by
  rw [decodeFields, familyOf_eq, h]
  rfl

/-- The sum of R88 fits in a word. -/
theorem toNat_encodeFields {d : Decoded} {widths : List Nat} (hl : layoutTable d.family.toNat = some widths)
    (hp : packFields 0 widths d.f.toList < 2 ^ widths.sum) :
    (encodeFields d).toNat = d.family.toNat + d.opcode.toNat * 2 ^ 8 + packFields 16 widths d.f.toList := by
  have hfam := d.family.isLt
  have hopc := d.opcode.isLt
  have hpow : 2 ^ widths.sum ≤ 2 ^ 48 := Nat.pow_le_pow_right (by decide) (layout_sum_le hl)
  rw [encodeFields, hl, Option.getD_some, packFields_eq_mul, BitVec.toNat_ofNat, Nat.mod_eq_of_lt]
  omega

/-- A well-formed tuple belongs to a known family, and its fields fit that family's row. -/
theorem layout_of_wellFormed {d : Decoded} (h : d.wellFormed = true) :
    ∃ widths, layoutTable d.family.toNat = some widths ∧ fieldsFit widths d.f.toList = true := by
  unfold Decoded.wellFormed at h
  split at h
  · exact ⟨_, ‹_›, h⟩
  · cases h

theorem toNat_encodeFields_of_wellFormed {d : Decoded} {widths : List Nat} (hd : d.wellFormed = true)
    (hl : layoutTable d.family.toNat = some widths) :
    (encodeFields d).toNat = d.family.toNat + d.opcode.toNat * 2 ^ 8 + packFields 16 widths d.f.toList := by
  obtain ⟨widths', hl', hfit⟩ := layout_of_wellFormed hd
  obtain rfl := Option.some.inj (hl.symm.trans hl')
  exact toNat_encodeFields hl (packFields_lt hfit)

theorem decodeFields_encodeFields {d : Decoded} (h : d.wellFormed = true) :
    decodeFields (encodeFields d) = some d := by
  obtain ⟨widths, hl, hfit⟩ := layout_of_wellFormed h
  have hw : (encodeFields d).toNat =
      d.family.toNat + d.opcode.toNat * 2 ^ 8 + 2 ^ 16 * packFields 0 widths d.f.toList := by
    rw [toNat_encodeFields_of_wellFormed h hl, packFields_eq_mul]
  have hfam := d.family.isLt
  have hopc := d.opcode.isLt
  have hfamily : familyOf (encodeFields d) = d.family := by
    apply BitVec.eq_of_toNat_eq
    rw [toNat_familyOf]
    omega
  have hopcode : opcodeOf (encodeFields d) = d.opcode := by
    apply BitVec.eq_of_toNat_eq
    rw [toNat_opcodeOf]
    omega
  have hrest : (encodeFields d).toNat / 2 ^ 16 = packFields 0 widths d.f.toList := by omega
  have hf : fieldsOfList (splitFields widths (packFields 0 widths d.f.toList)) = d.f :=
    fieldsOfList_eq (getD_splitFields_packFields hfit)
  rw [decodeFields, hfamily, hopcode, hl, hrest, Option.map_some, hf]

/-- Re-encoding keeps the bits the family consumes. -/
theorem toNat_encodeFields_of_decodeFields {w : InstrWord} {d : Decoded} (h : decodeFields w = some d) :
    (encodeFields d).toNat = w.toNat % 2 ^ consumedBits (w.extractLsb' 0 8).toNat := by
  rcases hl : layoutTable (w.extractLsb' 0 8).toNat with _ | widths
  · rw [decodeFields_of_unknown hl] at h
    cases h
  rw [decodeFields_of_layout hl] at h
  cases h
  have hpack : packFields 0 widths (fieldsOfList (splitFields widths (w.toNat / 2 ^ 16))).toList =
      w.toNat / 2 ^ 16 % 2 ^ widths.sum := by
    rw [← packFields_splitFields (layout_width_le hl)]
    exact packFields_congr 0 fun k hk => getD_toList_fieldsOfList _ (hk.trans_le (layout_length_le hl))
  rw [toNat_encodeFields hl (hpack ▸ Nat.mod_lt _ (by positivity)), packFields_eq_mul, hpack,
    consumedBits_of_layout hl, pow_add, Nat.mod_mul, ← familyOf_eq, ← opcodeOf_eq, toNat_familyOf, toNat_opcodeOf]
  omega

/-- Settles O1: the sum term by term, the loop on the sum, and the sum of what the loop took from a word. -/
theorem decodingIsLossless : Obligations.DecodingIsLossless := by
  refine ⟨fun d widths hd hl => ⟨?_, decodeFields_encodeFields hd⟩, fun w hw => ?_⟩
  · rw [toNat_encodeFields_of_wellFormed hd hl, packFields_eq_sum]
  · rcases hl : layoutTable (w.extractLsb' 0 8).toNat with _ | widths
    · exact absurd ((layoutTable_eq_none_iff _).1 hl) (by omega)
    · exact ⟨_, decodeFields_of_layout hl, toNat_encodeFields_of_decodeFields (decodeFields_of_layout hl)⟩

/-! ### Instructions -/

/-- Every instruction's tuple is well-formed, and its row of the Operation Matrix is the instruction. -/
theorem instr_wellFormed (i : Instr) : Laws.WellFormed.Statement i := by
  cases i with
  | nop => exact Laws.WellFormed.nop
  | ret => exact Laws.WellFormed.ret
  | print => exact Laws.WellFormed.print ..
  | read => exact Laws.WellFormed.read ..
  | lt => exact Laws.WellFormed.lt ..
  | gt => exact Laws.WellFormed.gt ..
  | eq => exact Laws.WellFormed.eq ..
  | ge => exact Laws.WellFormed.ge ..
  | le => exact Laws.WellFormed.le ..
  | li => exact Laws.WellFormed.li ..
  | jmp => exact Laws.WellFormed.jmp ..
  | call => exact Laws.WellFormed.call ..
  | st => exact Laws.WellFormed.st ..
  | ld => exact Laws.WellFormed.ld ..
  | addi => exact Laws.WellFormed.addi ..
  | subi => exact Laws.WellFormed.subi ..
  | muli => exact Laws.WellFormed.muli ..
  | divi => exact Laws.WellFormed.divi ..
  | shri => exact Laws.WellFormed.shri ..
  | shli => exact Laws.WellFormed.shli ..
  | andi => exact Laws.WellFormed.andi ..
  | ori => exact Laws.WellFormed.ori ..
  | xori => exact Laws.WellFormed.xori ..
  | lti => exact Laws.WellFormed.lti ..
  | gti => exact Laws.WellFormed.gti ..
  | eqi => exact Laws.WellFormed.eqi ..
  | jgtz => exact Laws.WellFormed.jgtz ..
  | div => exact Laws.WellFormed.div ..
  | mul => exact Laws.WellFormed.mul ..
  | add => exact Laws.WellFormed.add ..
  | sub => exact Laws.WellFormed.sub ..
  | and => exact Laws.WellFormed.and ..
  | or => exact Laws.WellFormed.or ..
  | xor => exact Laws.WellFormed.xor ..
  | shuf => exact Laws.WellFormed.shuf ..

theorem decode_eq_instr_iff (w : InstrWord) (i : Instr) :
    decode w = .instr i ↔ ∃ d, decodeFields w = some d ∧ operationMatrix d = some i := by
  unfold decode
  rcases decodeFields w with _ | d
  · simp
  · rcases h : operationMatrix d with _ | j <;> simp [h]

theorem decode_of_unknown {w : InstrWord} (h : decodeFields w = none) :
    decode w = .unknownFamily (w.extractLsb' 0 8) (w.extractLsb' 8 8) := by
  rw [decode, h, familyOf_eq, opcodeOf_eq]

theorem decode_of_unlisted {w : InstrWord} {d : Decoded} (hd : decodeFields w = some d)
    (hm : operationMatrix d = none) : decode w = .unknownOpcode d := by
  simp only [decode, hd, hm]

/-- Settles O2: the encoder's tuple is well-formed, so it decodes to itself, and its row is the instruction. -/
theorem instructionsRoundTrip : Obligations.InstructionsRoundTrip := by
  intro i
  obtain ⟨hwf, hrow⟩ := instr_wellFormed i
  exact (decode_eq_instr_iff _ _).2 ⟨_, decodeFields_encodeFields hwf, hrow⟩

/-! ### Field positions -/

/-- Settles O3: the row of each family, and the loop's turns on it. -/
theorem fieldPositions : Obligations.FieldPositions := by
  intro w
  refine ⟨fun h => ?family0, fun h => ?family1, fun h => ?family2, fun h => ?family3, fun h => ?family4,
    fun h => ?family5, fun h => decodeFields_of_unknown ((layoutTable_eq_none_iff _).2 h)⟩
  all_goals rw [decodeFields_of_layout (by rw [h]; rfl)]
  case family0 => rfl
  all_goals
    simp only [splitFields_word, BitVec.setWidth_eq]
    rfl

/-! ### Ignored bits -/

/-- Numbers that agree on the bits of a row have the same operand fields. -/
theorem splitFields_eq_of_mod_eq {widths : List Nat} {a b : Nat}
    (h : a % 2 ^ (16 + widths.sum) = b % 2 ^ (16 + widths.sum)) :
    splitFields widths (a / 2 ^ 16) = splitFields widths (b / 2 ^ 16) := by
  rw [← splitFields_mod widths (a / 2 ^ 16), ← splitFields_mod widths (b / 2 ^ 16),
    ← Nat.mod_mul_right_div_self, ← Nat.mod_mul_right_div_self, ← pow_add, h]

theorem consumedBits_bounds (family : Nat) : 16 ≤ consumedBits family ∧ consumedBits family ≤ 64 := by
  unfold consumedBits
  split <;> decide

/-- Every family consumes the two fixed fields. -/
theorem fixedFields_eq_of_ignored {w w' : InstrWord} (h : DifferOnlyInIgnoredBits w w') :
    w'.extractLsb' 0 8 = w.extractLsb' 0 8 ∧ w'.extractLsb' 8 8 = w.extractLsb' 8 8 := by
  have hlow : w.toNat % 2 ^ 16 = w'.toNat % 2 ^ 16 := by
    have hdvd := pow_dvd_pow 2 (consumedBits_bounds (w.extractLsb' 0 8).toNat).1
    rw [← Nat.mod_mod_of_dvd w.toNat hdvd, ← Nat.mod_mod_of_dvd w'.toNat hdvd, h]
  simp only [← familyOf_eq, ← opcodeOf_eq]
  constructor
  · apply BitVec.eq_of_toNat_eq
    rw [toNat_familyOf, toNat_familyOf]
    omega
  · apply BitVec.eq_of_toNat_eq
    rw [toNat_opcodeOf, toNat_opcodeOf]
    omega

theorem decodeFields_eq_of_ignored {w w' : InstrWord} (h : DifferOnlyInIgnoredBits w w') :
    decodeFields w' = decodeFields w := by
  obtain ⟨hfam, hopc⟩ := fixedFields_eq_of_ignored h
  rcases hl : layoutTable (w.extractLsb' 0 8).toNat with _ | widths
  · rw [decodeFields_of_unknown hl, decodeFields_of_unknown (hfam ▸ hl)]
  · rw [DifferOnlyInIgnoredBits, consumedBits_of_layout hl] at h
    rw [decodeFields_of_layout hl, decodeFields_of_layout (hfam ▸ hl), hfam, hopc, splitFields_eq_of_mod_eq h]

theorem decode_eq_of_ignored {w w' : InstrWord} (h : DifferOnlyInIgnoredBits w w') : decode w = decode w' := by
  obtain ⟨hfam, hopc⟩ := fixedFields_eq_of_ignored h
  simp only [decode, decodeFields_eq_of_ignored h, familyOf_eq, opcodeOf_eq, hfam, hopc]

/-! ### The listed pairs -/

/-- How many opcodes of a family are rows of the table of R92: they are the ones from 0 on. -/
def rowCount (family : Nat) : Nat :=
  match family with
  | 0 => 2
  | 1 => 2
  | 2 => 5
  | 3 => 3
  | 4 => 15
  | 5 => 8
  | _ => 0

/-- A row of the Operation Matrix whose entries are the opcodes below `count`. -/
theorem isSome_iff_lt {α : Type} {row : Nat → Option α} {count : Nat} (below : ∀ n < count, (row n).isSome = true)
    (above : ∀ n, row (n + count) = none) (n : Nat) : (row n).isSome = true ↔ n < count := by
  refine ⟨fun h => not_le.1 fun hle => ?_, below n⟩
  obtain ⟨m, rfl⟩ := Nat.exists_eq_add_of_le' hle
  simp [above] at h

/-- The rows of the Operation Matrix, family by family. -/
theorem operationMatrix_isSome_iff (d : Decoded) :
    (operationMatrix d).isSome = true ↔ d.opcode.toNat < rowCount d.family.toNat := by
  unfold operationMatrix
  generalize d.family.toNat = family
  match family with
  | 0 => exact isSome_iff_lt (row := matrixFamily0) (by decide) (fun _ => rfl) _
  | 1 =>
    exact isSome_iff_lt (row := (matrixFamily1 · d.f)) (count := 2) (fun n hn => by interval_cases n <;> rfl)
      (fun _ => rfl) _
  | 2 =>
    exact isSome_iff_lt (row := (matrixFamily2 · d.f)) (count := 5) (fun n hn => by interval_cases n <;> rfl)
      (fun _ => rfl) _
  | 3 =>
    exact isSome_iff_lt (row := (matrixFamily3 · d.f)) (count := 3) (fun n hn => by interval_cases n <;> rfl)
      (fun _ => rfl) _
  | 4 =>
    exact isSome_iff_lt (row := (matrixFamily4 · d.f)) (count := 15) (fun n hn => by interval_cases n <;> rfl)
      (fun _ => rfl) _
  | 5 =>
    exact isSome_iff_lt (row := (matrixFamily5 · d.f)) (count := 8) (fun n hn => by interval_cases n <;> rfl)
      (fun _ => rfl) _
  | n + 6 => simp [rowCount]

/-- Every match value of R92 is the pair of a row. -/
theorem rowCount_of_mem_matchValues :
    matchValues.all (fun v => decide (v.toNat / 2 ^ 8 < rowCount (v.toNat % 2 ^ 8))) = true := by
  decide

/-- Every pair of a row has its match value in R92. -/
theorem mem_matchValues_of_rowCount :
    ∀ family < 6, ∀ opcode < rowCount family, BitVec.ofNat 16 (opcode * 2 ^ 8 + family) ∈ matchValues := by
  decide

theorem lt_six_of_rowCount {family opcode : Nat} (h : opcode < rowCount family) : family < 6 := by
  unfold rowCount at h
  split at h
  case h_7 => omega
  all_goals decide

/-- The match column of R92 lists the same pairs. -/
theorem mem_matchValues_iff (v : BitVec 16) :
    v ∈ matchValues ↔ v.toNat / 2 ^ 8 < rowCount (v.toNat % 2 ^ 8) := by
  refine ⟨fun h => of_decide_eq_true (List.all_eq_true.1 rowCount_of_mem_matchValues v h), fun h => ?_⟩
  have hv := mem_matchValues_of_rowCount _ (lt_six_of_rowCount h) _ h
  rwa [Nat.div_add_mod', BitVec.ofNat_toNat, BitVec.setWidth_eq] at hv

/-- The match column read off a word: its family lists its opcode. -/
theorem low16_mem_matchValues_iff (w : InstrWord) :
    w.extractLsb' 0 16 ∈ matchValues ↔
      (w.extractLsb' 8 8).toNat < rowCount (w.extractLsb' 0 8).toNat := by
  have hfam : (w.extractLsb' 0 16).toNat % 2 ^ 8 = (w.extractLsb' 0 8).toNat := by
    simp only [BitVec.extractLsb'_toNat, Nat.shiftRight_eq_div_pow]
    omega
  have hopc : (w.extractLsb' 0 16).toNat / 2 ^ 8 = (w.extractLsb' 8 8).toNat := by
    simp only [BitVec.extractLsb'_toNat, Nat.shiftRight_eq_div_pow]
    omega
  rw [mem_matchValues_iff, hfam, hopc]

/-- A decoded word is a row of the Operation Matrix exactly if its low 16 bits are listed. -/
theorem operationMatrix_isSome_iff_listed {w : InstrWord} {d : Decoded} (hd : decodeFields w = some d) :
    (operationMatrix d).isSome = true ↔ w.extractLsb' 0 16 ∈ matchValues := by
  rw [operationMatrix_isSome_iff, low16_mem_matchValues_iff]
  rcases hl : layoutTable (w.extractLsb' 0 8).toNat with _ | widths
  · rw [decodeFields_of_unknown hl] at hd
    cases hd
  · rw [decodeFields_of_layout hl] at hd
    cases hd
    rfl

/-- Settles O5: the listed pairs all belong to known families, and on those the match column is the Operation Matrix. -/
theorem exactlyTheListedPairsDecode : Obligations.ExactlyTheListedPairsDecode := by
  intro w
  simp only [decode_eq_instr_iff]
  constructor
  · rintro ⟨i, d, hd, hi⟩
    exact (operationMatrix_isSome_iff_listed hd).1 (hi ▸ rfl)
  · intro hw
    have hknown := lt_six_of_rowCount ((low16_mem_matchValues_iff w).1 hw)
    rcases hl : layoutTable (w.extractLsb' 0 8).toNat with _ | widths
    · exact absurd ((layoutTable_eq_none_iff _).1 hl) (by omega)
    · have hd := decodeFields_of_layout hl
      obtain ⟨i, hi⟩ := Option.isSome_iff_exists.1 ((operationMatrix_isSome_iff_listed hd).2 hw)
      exact ⟨i, _, hd, hi⟩

end Sys2Proof
end

section
/-!
PROOFS. What a step makes of the word it fetches: words that differ only in ignored bits are run alike, and a word
that is no row of the Operation Matrix faults.
-/

namespace Sys2Proof.Machine

/-! ### Another program image of the same length -/

theorem executionOf_setProg (i : Instr) (s : State) (ws : List InstrWord) :
    executionOf i { s with prog := ws } = executionOf i s := by
  cases i <;> rfl

theorem State.commit_setProg (s : State) (ws : List InstrWord) (e : Effects) :
    State.commit { s with prog := ws } e = { s.commit e with prog := ws } := by
  ext1 <;> simp only [State.commit_cfg, State.commit_prog, State.commit_pc, State.commit_runState,
    State.commit_fault, State.commit_icount, State.commit_gpr, State.commit_mem, State.commit_stack,
    State.commit_input, State.commit_output]
  case gpr => exact State.commitRegs_gpr_congr (by rfl) _
  case mem => exact State.commitMem_mem_congr (by rfl) _
  case stack => exact State.commitStack_stack_congr (by rfl) _
  case input => exact State.consumeInput_input_congr (by rfl) _
  case output => exact State.commitOutput_output_congr (by rfl) _

/-- The halt test looks at no more of the program image than its length (R132). -/
theorem State.advance_setProg {s : State} {ws : List InstrWord} (h : ws.length = s.prog.length) (p : Option Word) :
    State.advance { s with prog := ws } p = { s.advance p with prog := ws } := by
  ext1
  case runState => simp [State.progLength, h]
  all_goals rfl

/-- After DISPATCH nothing but N is left of the program image. -/
theorem Ran.exec_setProg {i : Instr} {s t : State} (hran : Ran i s t) {ws : List InstrWord}
    (h : ws.length = s.prog.length) : exec i { s with prog := ws } = .next { t with prog := ws } := by
  have hx := executionOf_setProg i s ws
  rw [exec_eq_runInstr]
  cases hran with
  | guarded hg =>
    rw [runInstr_guarded hg]
    rfl
  | raised k c hp he =>
    rw [runInstr_raise hp (hx.trans he)]
    cases c <;> rfl
  | waited hp he => rw [runInstr_wait hp (hx.trans he)]
  | committed e hp he =>
    rw [runInstr_stage hp (hx.trans he), State.commit_setProg, State.advance_setProg (by simpa using h)]

/-- The other word in the program image, at the program counter. -/
theorem Fetches.set_word {s : State} {w : InstrWord} (h : Fetches s w) (w' : InstrWord) :
    Fetches { s with prog := s.prog.set s.pc.toNat w' } w' := by
  obtain ⟨hr, hw⟩ := h
  exact ⟨hr, List.getElem?_set_self (State.pc_lt_of_fetchWord hw)⟩

/-- Settles O4: both words decode alike, and what follows DECODE does not look at the program image. -/
theorem ignoredBitsHaveNoEffect : Obligations.IgnoredBitsHaveNoEffect := by
  refine ⟨fun w w' => decode_eq_of_ignored, fun s t w w' hf hig hst => ?_⟩
  obtain ⟨hr', hw'⟩ := hf.set_word w'
  obtain ⟨hr, hw⟩ := hf
  have hdec := decode_eq_of_ignored hig
  rcases hd : decode w with i | ⟨fam, opc⟩ | d
  · rw [step_of_instr hr hw hd] at hst
    rw [step_of_instr hr' hw' (hdec ▸ hd)]
    exact (ran_of_exec hst).exec_setProg (by simp)
  · rw [step_of_unknownFamily hr hw hd] at hst
    cases hst
    rw [step_of_unknownFamily hr' hw' (hdec ▸ hd)]
    rfl
  · rw [step_of_unknownOpcode hr hw hd] at hst
    cases hst
    rw [step_of_unknownOpcode hr' hw' (hdec ▸ hd)]
    rfl

/-- Settles O6: an unknown family is rejected by DECODE, and a known one with an unlisted opcode by DISPATCH. -/
theorem unlistedWordsFault : Obligations.UnlistedWordsFault := by
  intro s w ⟨hr, hw⟩ hlist
  rcases hl : layoutTable (w.extractLsb' 0 8).toNat with _ | widths
  · have hunknown := (layoutTable_eq_none_iff _).1 hl
    refine ⟨fun _ => ?_, fun hknown => absurd hknown (by omega)⟩
    rw [step_of_unknownFamily hr hw (decode_of_unknown (decodeFields_of_unknown hl))]
    rfl
  · have hd := decodeFields_of_layout hl
    have hrow : operationMatrix _ = none :=
      Option.not_isSome_iff_eq_none.1 fun h => hlist ((operationMatrix_isSome_iff_listed hd).1 h)
    refine ⟨fun hunknown => ?_, fun _ => ⟨_, hd, ?_⟩⟩
    · rw [(layoutTable_eq_none_iff _).2 hunknown] at hl
      cases hl
    · rw [step_of_unknownOpcode hr hw (decode_of_unlisted hd hrow)]
      rfl

end Sys2Proof.Machine
end

section
/-!
PROOFS. The rule shapes `WritesRegister` and `TransfersTo`, from what an instruction stages, and the idioms of R97.
-/

namespace Sys2Proof.Machine

/-- COMMIT and ADVANCE, as the frames of the statements say it. -/
theorem commitsTo_advance (s : State) (e : Effects) :
    CommitsTo s ((s.commit e).advance e.target) (e.target.getD (s.pc + 1)) := by
  simp [CommitsTo, State.progLength]

/-- An instruction that stages one register write, the one its guard lets through, writes that register. -/
theorem writesRegister_of_stageReg {i : Instr} {s : State} {d : RegIdx} {v : Word} (hdest : destinations i = [d])
    (hd : Writable d) (he : executionOf i s = stageReg d v) : WritesRegister i s d v := by
  have hguard : GuardPasses i := by
    rw [GuardPasses, hdest]
    exact List.forall_mem_singleton.2 hd
  obtain ⟨hd0, hd1⟩ := hd
  refine ⟨_, (exec_eq_runInstr i s).trans (runInstr_stage hguard he), ?_, fun r hr1 hr => ?_, fun a => ?_, ?_, ?_,
    commitsTo_advance s _⟩
  · rw [State.advance_readReg _ _ hd1, State.commit_readReg]
    exact State.readReg_writeReg_self s hd0 hd1 v
  · rw [State.advance_readReg _ _ hr1, State.commit_readReg]
    exact State.readReg_writeReg_of_ne s (by simpa using hr) v
  · simp
  · simp
  · simp [KeepsChannels]

/-- An instruction that stages no more than a control transfer goes to its target, or to the next index. -/
theorem transfersTo_of_target {i : Instr} {s : State} {target : Option Word} (hdest : destinations i = [])
    (he : executionOf i s = .stage { target := target }) :
    TransfersTo i s (target.getD (s.pc + 1)) s.stack := by
  have hguard : GuardPasses i := by simp [GuardPasses, hdest]
  exact ⟨_, (exec_eq_runInstr i s).trans (runInstr_stage hguard he), fun r hr1 _ => State.advance_readReg _ _ hr1,
    fun a => rfl, rfl, ⟨rfl, rfl⟩, commitsTo_advance s _⟩

theorem transfersTo_of_stageJump {i : Instr} {s : State} {p : Word} (hdest : destinations i = [])
    (he : executionOf i s = stageJump p) : TransfersTo i s p s.stack :=
  transfersTo_of_target (target := some p) hdest he

/-! ### What the idioms stage -/

theorem State.jumpTarget_eq (s : State) (b : RegIdx) (imm : Word) : s.jumpTarget b imm = s.readReg b + imm :=
  addWord_eq _ _

theorem executionOf_jmp (b : RegIdx) (imm : Word) (s : State) :
    executionOf (.jmp b imm) s = stageJump (s.readReg b + imm) :=
  congrArg stageJump (s.jumpTarget_eq b imm)

theorem executionOf_jgtz_taken {c : RegIdx} {s : State} (h : 0 < (s.readReg c).toInt) (b : RegIdx) (imm : Word) :
    executionOf (.jgtz c b imm) s = stageJump (s.readReg b + imm) := by
  rw [executionOf, jumpIfPositive, if_pos ((gtZero_iff _).2 h), s.jumpTarget_eq]

theorem executionOf_jgtz_not_taken {c : RegIdx} {s : State} (h : ¬ 0 < (s.readReg c).toInt) (b : RegIdx)
    (imm : Word) : executionOf (.jgtz c b imm) s = .stage {} := by
  rw [executionOf, jumpIfPositive, if_neg (mt (gtZero_iff _).1 h)]

theorem activeSlots_single {a : RegIdx} (h : a ≠ 0) (d : RegIdx) :
    activeSlots (shufSlots a 0 0 d 0 0) = [(a, d)] := by
  rw [activeSlots, shufSlots, List.filter_cons_of_pos (by simpa using h)]
  rfl

/-- A SHUF with one active slot moves one register. -/
theorem executionOf_shuf_single {a : RegIdx} (h : a ≠ 0) (d : RegIdx) (s : State) :
    executionOf (.shuf a 0 0 d 0 0) s = stageReg d (s.readReg a) := by
  rw [executionOf, shuffle, activeSlots_single h]
  rfl

theorem destinations_shuf_single {a : RegIdx} (h : a ≠ 0) (d : RegIdx) : destinations (.shuf a 0 0 d 0 0) = [d] := by
  rw [destinations, activeSlots_single h]
  rfl

/-- A chain of two sources (R221). -/
theorem executionOf_sub_pair (d e a b : RegIdx) (s : State) :
    executionOf (.sub d e a b 0 0) s = stageReg d (s.readReg a - s.readReg b) := by
  simp [executionOf, regChain, State.chainValues, chain]

theorem executionOf_addi (d a : RegIdx) (imm : Word) (s : State) :
    executionOf (.addi d a imm) s = stageReg d (s.readReg a + imm) :=
  congrArg (stageReg d) (addWord_eq _ _)

/-- Settles O56: each idiom stages one register write or at most a control transfer. -/
theorem idiomsHaveTheirEffects : Obligations.IdiomsHaveTheirEffects := by
  have jump_absolute : ∀ target s, TransfersTo (.jmp 0 target) s target s.stack := fun target s =>
    transfersTo_of_stageJump rfl ((executionOf_jmp 0 target s).trans (congrArg stageJump (BitVec.zero_add target)))
  refine ⟨fun d a s hd => ?_, fun d a s hd ha => ?_, fun d s hd => ?_, fun d a s hd => ?_, fun d a s hd => ?_,
    jump_absolute, fun k s => ?_, fun target s ht => ?_, fun c k s hc => ?_, fun c k s hc => ?_⟩
  · exact writesRegister_of_stageReg rfl hd ((executionOf_addi d a 0 s).trans (congrArg _ (BitVec.add_zero _)))
  · exact writesRegister_of_stageReg (destinations_shuf_single ha d) hd (executionOf_shuf_single ha d s)
  · exact writesRegister_of_stageReg rfl hd rfl
  · exact writesRegister_of_stageReg rfl hd (executionOf_sub_pair d 0 0 a s)
  · exact writesRegister_of_stageReg rfl hd (congrArg (stageReg d) BitVec.xor_allOnes)
  · exact transfersTo_of_stageJump rfl (executionOf_jmp 1 k s)
  · obtain ⟨t, hexec, -, -, -, -, hpc, -, hrun, -⟩ := jump_absolute target s
    exact ⟨t, hexec, hpc, hrun.trans (if_pos ht)⟩
  · exact transfersTo_of_stageJump rfl (executionOf_jgtz_taken hc 1 k)
  · exact transfersTo_of_target (target := none) rfl (executionOf_jgtz_not_taken hc 1 k)

end Sys2Proof.Machine
end

section
/-!
PROOFS. What DECODE and DISPATCH answer for a word, and the snapshot of an instruction (60_exceptions.md R243): the
tuple of the instruction a word decodes to is the full decode of that word.
-/

namespace Sys2Proof

/-- The operand fields of a family as an instruction holds them: a register field has 8 bits, an immediate all 32, and
a field the family does not declare is 0 (30_encoding.md R83). -/
def operandFields (family : Nat) (f : Fields) : Fields :=
  match family with
  | 1 => ⟨field (reg f.f0), 0, 0, 0, 0, 0⟩
  | 2 => ⟨field (reg f.f0), field (reg f.f1), field (reg f.f2), 0, 0, 0⟩
  | 3 => ⟨field (reg f.f0), f.f1, 0, 0, 0, 0⟩
  | 4 => ⟨field (reg f.f0), field (reg f.f1), f.f2, 0, 0, 0⟩
  | 5 => ⟨field (reg f.f0), field (reg f.f1), field (reg f.f2),
          field (reg f.f3), field (reg f.f4), field (reg f.f5)⟩
  | _ => Fields.zero

/-- The rows of the Operation Matrix read backwards: an instruction's tuple has the family and opcode of its row. -/
theorem toDecoded_of_operationMatrix {d : Decoded} {i : Instr} (h : operationMatrix d = some i) :
    i.toDecoded = ⟨d.family, d.opcode, operandFields d.family.toNat d.f⟩ := by
  have rows : i.toDecoded =
      ⟨BitVec.ofNat 8 d.family.toNat, BitVec.ofNat 8 d.opcode.toNat, operandFields d.family.toNat d.f⟩ := by
    unfold operationMatrix at h
    generalize d.family.toNat = family at *
    generalize d.opcode.toNat = opcode at *
    split at h
    case h_7 => cases h
    all_goals
      simp only [matrixFamily0, matrixFamily1, matrixFamily2, matrixFamily3, matrixFamily4, matrixFamily5] at h
      split at h <;> cases h <;> rfl
  simpa using rows

/-- A number of 8 bits survives its operand field. -/
theorem field_reg_ofNat_mod (n : Nat) : field (reg (BitVec.ofNat 32 (n % 256))) = BitVec.ofNat 32 (n % 256) := by
  apply BitVec.eq_of_toNat_eq
  rw [Laws.field_toNat, reg, BitVec.toNat_setWidth, BitVec.toNat_ofNat]
  omega

/-- The decoder's loop already gives every field the width of its family. -/
theorem operandFields_splitFields {family : Nat} {widths : List Nat} (h : layoutTable family = some widths)
    (rest : Nat) : operandFields family (fieldsOfList (splitFields widths rest)) =
      fieldsOfList (splitFields widths rest) := by
  unfold layoutTable at h
  split at h <;> cases h <;> simp [operandFields, splitFields, fieldsOfList, field_reg_ofNat_mod, Fields.zero]

theorem decodeFields_of_decode_instr {w : InstrWord} {i : Instr} (h : decode w = .instr i) :
    decodeFields w = some i.toDecoded := by
  obtain ⟨d, hd, hi⟩ := (decode_eq_instr_iff w i).1 h
  rw [toDecoded_of_operationMatrix hi]
  rcases hl : layoutTable (w.extractLsb' 0 8).toNat with _ | widths
  · rw [decodeFields_of_unknown hl] at hd
    cases hd
  · rw [decodeFields_of_layout hl] at hd ⊢
    cases hd
    rw [operandFields_splitFields hl]

theorem decodeFields_of_decode_unknownFamily {w : InstrWord} {fam opc : Byte} (h : decode w = .unknownFamily fam opc) :
    decodeFields w = none ∧ fam = w.extractLsb' 0 8 ∧ opc = w.extractLsb' 8 8 := by
  rcases hd : decodeFields w with _ | d
  · rw [decode_of_unknown hd] at h
    cases h
    exact ⟨rfl, rfl, rfl⟩
  · rcases hm : operationMatrix d with _ | i <;> simp [decode, hd, hm] at h

theorem decodeFields_of_decode_unknownOpcode {w : InstrWord} {d : Decoded} (h : decode w = .unknownOpcode d) :
    decodeFields w = some d := by
  rcases hd : decodeFields w with _ | d'
  · simp [decode, hd] at h
  · rcases hm : operationMatrix d' with _ | i <;> simp_all [decode]

/-- DECODE answers a tuple exactly for the families of the Layout Table, 0 to 5. -/
theorem decodeFields_eq_none_iff (w : InstrWord) : decodeFields w = none ↔ 5 < (w.extractLsb' 0 8).toNat := by
  rw [← layoutTable_eq_none_iff, decodeFields, familyOf_eq, Option.map_eq_none_iff]

theorem fixedFields_of_decodeFields {w : InstrWord} {d : Decoded} (h : decodeFields w = some d) :
    d.family = w.extractLsb' 0 8 ∧ d.opcode = w.extractLsb' 8 8 := by
  rw [decodeFields, familyOf_eq, opcodeOf_eq] at h
  obtain ⟨widths, -, rfl⟩ := Option.map_eq_some_iff.1 h
  exact ⟨rfl, rfl⟩

end Sys2Proof
end

section
/-!
PROOFS. The step (40_engine.md): FETCH to DISPATCH, the three ways a step of a Running core ends (`RunningStep`), the
write guard, the next program counter, and runs that wait or repeat.
-/

namespace Sys2Proof.Machine

/-! ### FETCH, DECODE and DISPATCH -/

/-- Settles O8: an instruction is one word, so the step adds nothing around `exec`. -/
theorem stepRunsTheDecodedInstruction : Obligations.StepRunsTheDecodedInstruction :=
  fun _ _ _ ⟨hr, hw⟩ hd => step_of_instr hr hw hd

theorem step_of_aboutToRun {s : State} {i : Instr} (h : AboutToRun s i) : step s = exec i s := by
  obtain ⟨w, hf, hd⟩ := h
  exact stepRunsTheDecodedInstruction s w i hf hd

/-- A fetched word that is no instruction is reported by its two fixed fields. -/
theorem step_of_no_instr {s : State} {w : InstrWord} (hf : Fetches s w) (hn : ∀ i, decode w ≠ .instr i) :
    ∃ f, step s = .next
      (s.takeFault .unknownFamilyOrOpcode ⟨w.extractLsb' 0 8, w.extractLsb' 8 8, f⟩) := by
  obtain ⟨hr, hw⟩ := hf
  rcases hd : decode w with i | ⟨fam, opc⟩ | d
  · exact absurd hd (hn i)
  · obtain ⟨-, rfl, rfl⟩ := decodeFields_of_decode_unknownFamily hd
    exact ⟨_, step_of_unknownFamily hr hw hd⟩
  · obtain ⟨hfam, hopc⟩ := fixedFields_of_decodeFields (decodeFields_of_decode_unknownOpcode hd)
    refine ⟨d.f, (step_of_unknownOpcode hr hw hd).trans ?_⟩
    rw [← hfam, ← hopc]

/-- Settles O9: the three answers of FETCH and DECODE, and the invariant's clause on a Running state. -/
theorem fetchReadsTheProgramImage : Obligations.FetchReadsTheProgramImage := by
  refine ⟨fun s hr hbeyond => ?_, fun s i hlt hr hd => ?_, fun s hlt hr hn => ?_,
    fun s => State.Inv.pc_ne_progLength⟩
  · exact step_of_no_word hr (s.fetchWord_eq_none_iff.2 hbeyond)
  · exact step_of_instr hr (List.getElem?_eq_getElem hlt) hd
  · exact step_of_no_instr ⟨hr, List.getElem?_eq_getElem hlt⟩ hn

/-- Settles O10: outside Running a step answers the state it began in. -/
theorem terminalStatesStay : Obligations.TerminalStatesStay :=
  fun _ hr n => core_run_of_fixed (step_of_not_running hr) n

/-! ### The three ways a step of a Running core ends -/

/-- Only READ waits (R136), and only READ consumes an item and faults (R162). -/
theorem no_wait_or_consuming_fault {i : Instr} (hread : ∀ d, i ≠ .read d) (s : State) :
    executionOf i s ≠ .wait ∧ ∀ k, executionOf i s ≠ .raise k true := by
  cases i
  case read d => exact absurd rfl (hread d)
  case ret | call | st | ld | divi | jgtz | div =>
    simp only [executionOf, popJump, pushJump, storeCell, loadCell, stageReg, divideImm, jumpIfPositive, stageJump,
      divideChain]
    split <;> simp
  all_goals exact ⟨nofun, nofun⟩

/-- READ waits without an item. -/
theorem read_of_executionOf_eq_wait {i : Instr} {s : State} (h : executionOf i s = .wait) :
    s.input = [] ∧ ∃ d, i = .read d := by
  by_cases hread : ∃ d, i = .read d
  · obtain ⟨d, rfl⟩ := hread
    simp only [executionOf, readItem] at h
    split at h <;> cases h
    exact ⟨‹_›, d, rfl⟩
  · exact absurd h (no_wait_or_consuming_fault (fun d hd => hread ⟨d, hd⟩) s).1

/-- READ consumes an item and faults when the item is Malformed. -/
theorem malformed_of_raise_consumed {i : Instr} {s : State} {k : FaultKind} (h : executionOf i s = .raise k true) :
    k = .malformedInput ∧ ∃ rest, s.input = .malformed :: rest := by
  by_cases hread : ∃ d, i = .read d
  · obtain ⟨d, rfl⟩ := hread
    simp only [executionOf, readItem] at h
    split at h <;> cases h
    exact ⟨rfl, _, ‹_›⟩
  · exact absurd h ((no_wait_or_consuming_fault (fun d hd => hread ⟨d, hd⟩) s).2 k)

/-- The kind and the tuple a snapshot taken in `s` may hold (R243): nothing decoded at or beyond N, no operand field of
an unknown family (D29), and otherwise the full decode of the fetched word. -/
def SnapshotFits (s : State) (k : FaultKind) (d : Decoded) : Prop :=
  (s.progLength ≤ s.pc.toNat → k = .fetchOutOfRange ∧ d = Decoded.zero) ∧
  (∀ w, s.prog[s.pc.toNat]? = some w → k ≠ .fetchOutOfRange ∧
    (5 < (w.extractLsb' 0 8).toNat →
      k = .unknownFamilyOrOpcode ∧ d = ⟨w.extractLsb' 0 8, w.extractLsb' 8 8, Fields.zero⟩) ∧
    ((w.extractLsb' 0 8).toNat ≤ 5 → decodeFields w = some d))

theorem snapshotFits_of_no_word {s : State} (hw : s.fetchWord = none) :
    SnapshotFits s .fetchOutOfRange Decoded.zero :=
  ⟨fun _ => ⟨rfl, rfl⟩, fun _ hw' => nomatch hw.symm.trans hw'⟩

theorem snapshotFits_of_unknownFamily {s : State} {w : InstrWord} {fam opc : Byte} (hw : s.fetchWord = some w)
    (hd : decode w = .unknownFamily fam opc) :
    SnapshotFits s .unknownFamilyOrOpcode ⟨fam, opc, Fields.zero⟩ := by
  obtain ⟨hnone, rfl, rfl⟩ := decodeFields_of_decode_unknownFamily hd
  have hunknown := (decodeFields_eq_none_iff w).1 hnone
  refine ⟨fun hbeyond => absurd (State.pc_lt_of_fetchWord hw) (by omega), fun w' hw' => ?_⟩
  obtain rfl := Option.some.inj (hw.symm.trans hw')
  exact ⟨by decide, fun _ => ⟨rfl, rfl⟩, fun hknown => absurd hunknown (by omega)⟩

theorem snapshotFits_of_decodeFields {s : State} {w : InstrWord} {k : FaultKind} {d : Decoded}
    (hw : s.fetchWord = some w) (hd : decodeFields w = some d) (hk : k ≠ .fetchOutOfRange) : SnapshotFits s k d := by
  refine ⟨fun hbeyond => absurd (State.pc_lt_of_fetchWord hw) (by omega), fun w' hw' => ?_⟩
  obtain rfl := Option.some.inj (hw.symm.trans hw')
  refine ⟨hk, fun hunknown => ?_, fun _ => hd⟩
  exact nomatch hd.symm.trans ((decodeFields_eq_none_iff w).2 hunknown)

/-- What a step of the Running core in `s` ends in. -/
inductive RunningStep (s : State) : State → Prop where
  /-- COMMIT and ADVANCE of the instruction about to run. -/
  | committed (i : Instr) (e : Effects) (hi : AboutToRun s i) (he : executionOf i s = .stage e) :
      RunningStep s ((s.commit e).advance e.target)
  /-- Fault entry, in whatever stage; a consumed item is a Malformed one. -/
  | faulted (k : FaultKind) (d : Decoded) (c : Bool)
      (hc : c = true → k = .malformedInput ∧ ∃ rest, s.input = .malformed :: rest) (hd : SnapshotFits s k d) :
      RunningStep s ((s.consumeInput c).takeFault k d)
  /-- A READ without an item. -/
  | waited (d : RegIdx) (hi : AboutToRun s (.read d)) (hin : s.input = []) : RunningStep s s

/-- The fault entries that consume nothing. -/
theorem RunningStep.fault_entry {s : State} {k : FaultKind} {d : Decoded} (hd : SnapshotFits s k d) :
    RunningStep s (s.takeFault k d) :=
  .faulted k d false nofun hd

/-- The four things the instruction about to run can do, among the three. -/
theorem Ran.runningStep {i : Instr} {s t : State} (hi : AboutToRun s i) (hran : Ran i s t) : RunningStep s t := by
  obtain ⟨w, ⟨hr, hw⟩, hd⟩ := hi
  have hfields := decodeFields_of_decode_instr hd
  cases hran with
  | guarded _ => exact .fault_entry (snapshotFits_of_decodeFields hw hfields (by decide))
  | raised k c _ he =>
    have hk : k ≠ .fetchOutOfRange := by
      have hsound := executionOf_sound i s
      rwa [he] at hsound
    exact .faulted k _ c (fun hc => malformed_of_raise_consumed (hc ▸ he))
      (snapshotFits_of_decodeFields hw hfields hk)
  | waited _ he =>
    obtain ⟨hin, d, rfl⟩ := read_of_executionOf_eq_wait he
    exact .waited d ⟨w, ⟨hr, hw⟩, hd⟩ hin
  | committed e _ he => exact .committed i e ⟨w, ⟨hr, hw⟩, hd⟩ he

/-- Every step of a Running core ends in one of the three ways, by what FETCH and DECODE answer. -/
theorem runningStep_of_step {s t : State} (hr : s.runState = .running) (hst : step s = .next t) :
    RunningStep s t := by
  rcases hw : s.fetchWord with _ | w
  · rw [step_of_no_word hr hw] at hst
    cases hst
    exact .fault_entry (snapshotFits_of_no_word hw)
  · rcases hd : decode w with i | ⟨fam, opc⟩ | d
    · rw [step_of_instr hr hw hd] at hst
      exact (ran_of_exec hst).runningStep ⟨w, ⟨hr, hw⟩, hd⟩
    · rw [step_of_unknownFamily hr hw hd] at hst
      cases hst
      exact .fault_entry (snapshotFits_of_unknownFamily hw hd)
    · rw [step_of_unknownOpcode hr hw hd] at hst
      cases hst
      exact .fault_entry (snapshotFits_of_decodeFields hw (decodeFields_of_decode_unknownOpcode hd) (by decide))

/-- Fault entry after consuming an item, or none, changes RUNSTATE, FAULT and the input channel. -/
theorem State.takeFault_consumeInput (s : State) (c : Bool) (k : FaultKind) (d : Decoded) :
    (s.consumeInput c).takeFault k d = { s with
      runState := .faulted
      fault := some ⟨k, s.pc, d.family, d.opcode, d.f⟩
      input := (s.consumeInput c).input } := by
  cases c <;> rfl

/-- A fault leaves the input channel, but for a Malformed item. -/
theorem input_of_fault {s : State} {k : FaultKind} {c : Bool}
    (hc : c = true → k = .malformedInput ∧ ∃ rest, s.input = .malformed :: rest) :
    (s.consumeInput c).input = s.input ∨
      (k = .malformedInput ∧ s.input = .malformed :: (s.consumeInput c).input) := by
  cases c
  · exact .inl rfl
  · obtain ⟨hk, rest, hin⟩ := hc rfl
    exact .inr ⟨hk, by simp [hin]⟩

/-- Settles O15: only the second of the three ways ends Faulted. -/
theorem faultEntryRecordsTheSnapshot : Obligations.FaultEntryRecordsTheSnapshot := by
  intro s t hr hst hfaulted
  cases runningStep_of_step hr hst with
  | committed i e _ _ => exact absurd hfaulted (State.advance_ne_faulted (by simp [hr]) _)
  | faulted k d c hc hd =>
    obtain ⟨hbeyond, hword⟩ := hd
    exact ⟨k, d, s.takeFault_consumeInput c k d, input_of_fault hc, hbeyond, hword⟩
  | waited d _ _ => simp [hr] at hfaulted

/-- Settles O13: the three ways, in the statement's words. -/
theorem stepIsAllOrNothing : Obligations.StepIsAllOrNothing := by
  intro s t hr hst
  cases runningStep_of_step hr hst with
  | committed i e _ _ =>
    refine .inl ⟨by simp, by simp, ?_⟩
    simp [hr, State.progLength]
  | faulted k d c hc _ =>
    exact .inr (.inl ⟨⟨k, s.pc, d.family, d.opcode, d.f⟩, rfl, s.takeFault_consumeInput c k d,
      input_of_fault hc⟩)
  | waited d hi hin => exact .inr (.inr ⟨rfl, hin, d, hi⟩)

/-- Settles O14: of the three ways only the first counts the instruction. -/
theorem haltsExactlyAtN : Obligations.HaltsExactlyAtN := by
  intro s t hr hst hcount
  rcases stepIsAllOrNothing s t hr hst with ⟨-, hfault, hrun⟩ | ⟨snap, -, ht, -⟩ | ⟨ht, -, -⟩
  · rw [hrun]
    refine ⟨?_, ?_, hfault⟩ <;> split <;> simp_all
  · rw [ht] at hcount
    simp at hcount
  · rw [ht] at hcount
    simp at hcount

/-! ### The write guard and the register frame -/

/-- Settles O16: the guard comes before EXECUTE. -/
theorem writeGuardFaults : Obligations.WriteGuardFaults := by
  rintro i s ⟨d, hd, rfl | rfl⟩
  · exact faults_of_guarded_destination s hd rfl
  · exact faults_of_guarded_destination s hd rfl

/-- None of the four things an instruction can do writes a register outside DEST, but x[1]. -/
theorem Ran.keeps_other_registers {i : Instr} {s t : State} (h : Ran i s t) {r : RegIdx} (hr1 : r ≠ 1)
    (hr : r ∉ destinations i) : t.readReg r = s.readReg r := by
  cases h with
  | guarded _ => exact s.takeFault_readReg _ _ r
  | raised k c _ _ => exact State.readReg_congr_gpr (by simp) hr1
  | waited _ _ => rfl
  | committed e _ he =>
    rw [State.advance_readReg _ _ hr1, State.commit_readReg]
    exact s.readReg_commitRegs_of_notMem (staged_regs_eq_destinations he ▸ hr)

/-- Settles O18: the staged register writes name exactly DEST. -/
theorem onlyDestinationsChange : Obligations.OnlyDestinationsChange :=
  fun _ _ _ _ h hr1 hr => (ran_of_exec h).keeps_other_registers hr1 hr

/-! ### The next program counter -/

/-- The staged transfer, or else the next index, is the table of R137: RET, JMP, CALL and JGTZ stage a transfer, and no
other instruction does. -/
theorem staged_target_eq_nextPc {i : Instr} {s : State} {e : Effects} (h : executionOf i s = .stage e) :
    e.target.getD (s.pc + 1) = nextPc i s := by
  cases i
  case ret =>
    simp only [executionOf, popJump] at h
    split at h <;> cases h
    simp [nextPc, ‹s.stack = _›]
  case jmp b imm =>
    cases h
    exact s.jumpTarget_eq b imm
  case call b imm =>
    simp only [executionOf, pushJump] at h
    split at h <;> cases h
    exact s.jumpTarget_eq b imm
  case jgtz c b imm =>
    by_cases hpos : 0 < (s.readReg c).toInt
    · rw [executionOf_jgtz_taken hpos] at h
      cases h
      exact (if_pos hpos).symm
    · rw [executionOf_jgtz_not_taken hpos] at h
      cases h
      exact (if_neg hpos).symm
  case read | st | ld | divi | div =>
    simp only [executionOf, readItem, storeCell, loadCell, divideImm, divideChain] at h
    split at h <;> cases h
    rfl
  all_goals
    cases h
    rfl

theorem pc_of_exec_commits {i : Instr} {s t : State} (h : exec i s = .next t) (hn : t.icount = s.icount + 1) :
    t.pc = nextPc i s := by
  obtain ⟨e, he, rfl⟩ := (ran_of_exec h).commits_of_icount hn
  simpa using staged_target_eq_nextPc he

/-- Settles O19: the next step fetches at the new x[1] from the same program image. -/
theorem nextProgramCounter : Obligations.NextProgramCounter := by
  refine ⟨fun i s t => pc_of_exec_commits, fun i s t w j h hn hr hw hd => ?_⟩
  obtain ⟨hprog, -⟩ := (ran_of_exec h).keeps_run_inputs
  have hw' : t.fetchWord = some w := by rwa [State.fetchWord, hprog, pc_of_exec_commits h hn]
  exact step_of_instr hr hw' hd

/-! ### Waiting for input -/

theorem guardPasses_read {d : RegIdx} (hd : Writable d) : GuardPasses (.read d) :=
  List.forall_mem_singleton.2 hd

theorem exec_read_waits {d : RegIdx} {s : State} (hd : Writable d) (hin : s.input = []) :
    exec (.read d) s = .next s := by
  have he : executionOf (.read d) s = .wait := by simp only [executionOf, readItem, hin]
  exact (exec_eq_runInstr _ s).trans (runInstr_wait (guardPasses_read hd) he)

theorem toNat_wrap32 (v : Int) : ((wrap32 v).toNat : Int) = v % 2 ^ 32 := by
  rw [wrap32, BitVec.toNat_ofInt]
  omega

/-- READ with an integer item there (R162). -/
theorem exec_read_int {d : RegIdx} {s : State} {v : Int} {rest : List InputItem} (hd : Writable d)
    (hin : s.input = .int v :: rest) :
    ∃ t, exec (.read d) s = .next t ∧ t.readReg d = wrap32 v ∧ t.input = rest ∧ t.icount = s.icount + 1 := by
  have he : executionOf (.read d) s = .stage { regs := [(d, wrap32 v)], consumes := true } := by
    simp only [executionOf, readItem, hin]
  refine ⟨_, (exec_eq_runInstr _ s).trans (runInstr_stage (guardPasses_read hd) he), ?_, by simp [hin], by simp⟩
  obtain ⟨hd0, hd1⟩ := hd
  rw [State.advance_readReg _ _ hd1, State.commit_readReg]
  exact State.readReg_writeReg_self s hd0 hd1 _

/-- Settles O11: a waiting step is a fixed point of the run, and the item supplied is what the next step takes. -/
theorem readWaitsForInput : Obligations.ReadWaitsForInput := by
  refine ⟨fun d s => exec_read_waits, fun s d hi hd hin => ⟨fun n => ?_, fun v rest => ?_⟩⟩
  · exact core_run_of_fixed ((step_of_aboutToRun hi).trans (exec_read_waits hd hin)) n
  · have hi' : AboutToRun (s.supplyInput (.int v :: rest)) (.read d) := hi
    have hin' : (s.supplyInput (.int v :: rest)).input = .int v :: rest := by simp [hin]
    obtain ⟨t, hexec, hreg, hrest, hcount⟩ := exec_read_int hd hin'
    exact ⟨t, (step_of_aboutToRun hi').trans hexec, by rw [hreg, toNat_wrap32], hrest, hcount⟩

/-! ### Control transfers to their own address -/

/-- A run along a sequence of states each of which steps to the next. -/
theorem core_run_along {u : Nat → State} {n : Nat} (h : ∀ k < n, step (u k) = .next (u (k + 1))) (m : Nat) :
    Host.Core.run Sys2Proof.core (n + m) (u 0) = Host.Core.run Sys2Proof.core m (u n) := by
  induction n generalizing m with
  | zero => rw [Nat.zero_add]
  | succ n ih =>
    rw [Nat.add_right_comm, Nat.add_assoc, ih (fun k hk => h k (by omega))]
    exact core_run_succ (h n (by omega)) m

/-- An instruction that transfers to its own address, and may push, leaves the core about to run it again: below N the
halt test fails. -/
theorem step_of_self_transfer {s : State} {i : Instr} {op : Option StackOp} (hi : AboutToRun s i)
    (hdest : destinations i = []) (he : executionOf i s = .stage { stack := op, target := some s.pc }) :
    step s = .next { s with stack := (s.commitStack op).stack, icount := s.icount + 1 } := by
  have hguard : GuardPasses i := by simp [GuardPasses, hdest]
  rw [step_of_aboutToRun hi, exec_eq_runInstr, runInstr_stage hguard he]
  obtain ⟨w, ⟨-, hw⟩, -⟩ := hi
  have hpc := State.pc_lt_of_fetchWord hw
  congr 1
  ext1
  case runState =>
    rw [State.advance_runState, if_neg (by simpa [State.progLength] using hpc.ne), State.commit_runState]
  all_goals simp

/-- Neither ICOUNT nor the call stack says which instruction is next. -/
theorem AboutToRun.set_stack_icount {s : State} {i : Instr} (h : AboutToRun s i) (k : List Word) (n : Nat) :
    AboutToRun { s with stack := k, icount := n } i := h

/-- A transfer to its own address that leaves the stack repeats for ever. -/
theorem core_run_of_self_transfer {s : State} {i : Instr} (hi : AboutToRun s i) (hdest : destinations i = [])
    (he : ∀ n, executionOf i { s with icount := n } = stageJump s.pc) (n : Nat) :
    Host.Core.run Sys2Proof.core n s = Host.Outcome.next { s with icount := s.icount + n } :=
  core_run_along (u := fun k => { s with icount := s.icount + k })
    (fun k _ => step_of_self_transfer (hi.set_stack_icount s.stack (s.icount + k)) hdest (he _)) 0

/-- The state after `n` calls of CALL r1, 0. -/
def State.selfCalls (s : State) (n : Nat) : State :=
  { s with stack := List.replicate n (s.pc + 1) ++ s.stack, icount := s.icount + n }

theorem State.selfCalls_aboutToRun {s : State} {i : Instr} (h : AboutToRun s i) (n : Nat) :
    AboutToRun (s.selfCalls n) i := h.set_stack_icount _ _

@[simp] theorem State.selfCalls_stack_length (s : State) (n : Nat) :
    (s.selfCalls n).stack.length = s.stack.length + n := by
  simp [State.selfCalls, Nat.add_comm]

theorem executionOf_self_call {s : State} (hfull : s.stackFull = false) :
    executionOf (.call 1 0) s = .stage { stack := some (.push (s.pc + 1)), target := some s.pc } := by
  simp [executionOf, pushJump, hfull, State.jumpTarget_eq]

/-- Each self-call on a stack that is not full pushes the next index once more. -/
theorem step_selfCalls {s : State} (hi : AboutToRun s (.call 1 0)) {n : Nat}
    (hfull : (s.selfCalls n).stackFull = false) : step (s.selfCalls n) = .next (s.selfCalls (n + 1)) :=
  step_of_self_transfer (s.selfCalls_aboutToRun hi n) rfl (executionOf_self_call hfull)

/-- A CALL on a full stack (R183). -/
theorem step_of_call_on_full_stack {s : State} {b : RegIdx} {imm : Word} (hi : AboutToRun s (.call b imm))
    (hfull : s.stackFull = true) : step s = .next (s.takeFault .stackOverflow (Instr.call b imm).toDecoded) := by
  have he : executionOf (.call b imm) s = .raise .stackOverflow false := by
    rw [executionOf, pushJump, if_pos hfull]
  have hguard : GuardPasses (.call b imm) := List.forall_mem_nil _
  rw [step_of_aboutToRun hi, exec_eq_runInstr, runInstr_raise hguard he, State.consumeInput_false]

/-- Settles O20: each transfer is taken at every state of the run; with n free entries the stack is full after n calls
and not before. -/
theorem selfTransfersRepeat : Obligations.SelfTransfersRepeat := by
  refine ⟨fun s n hi => ?jmp, fun s n c hi hpos => ?jgtz, fun s n hi hdepth => ?unbounded,
    fun s n hi hdepth => ?finite⟩
  case jmp =>
    refine core_run_of_self_transfer hi rfl (fun m => ?_) n
    rw [executionOf_jmp]
    simp
  case jgtz =>
    refine core_run_of_self_transfer hi rfl (fun m => ?_) n
    have hpos' : 0 < (State.readReg { s with icount := m } c).toInt := hpos
    rw [executionOf_jgtz_taken hpos']
    simp
  case unbounded =>
    refine core_run_along (u := s.selfCalls) (fun k _ => step_selfCalls hi ?_) 0
    simp [State.stackFull_eq_false_iff, State.selfCalls, hdepth]
  case finite =>
    have hcalls : ∀ k < n, step (s.selfCalls k) = .next (s.selfCalls (k + 1)) := fun k hk => by
      refine step_selfCalls hi ((State.stackFull_eq_false_iff _).2 fun m hm => ?_)
      obtain rfl := StackDepth.finite.inj (hdepth.symm.trans hm)
      rw [State.selfCalls_stack_length]
      omega
    have hfull : (s.selfCalls n).stackFull = true := by
      simp [State.stackFull, State.selfCalls, hdepth, Nat.add_comm]
    exact (core_run_along hcalls 1).trans
      (core_run_succ (step_of_call_on_full_stack (s.selfCalls_aboutToRun hi n) hfull) 0)

end Sys2Proof.Machine
end

section
/-!
PROOFS. Family 0 (41_family0_control.md). The layer below serves any family: what the two fixed fields of a word make it
decode to, the fault an execution raises, and a control transfer that may also push or pop.
-/

namespace Sys2Proof.Machine

/-- A word decodes to the row of the Operation Matrix that its two fixed fields and its operand fields name. -/
theorem decode_of_hasCode {w : InstrWord} {family opcode : Byte} {widths : List Nat} {i : Instr}
    (hw : HasCode w family opcode) (hl : layoutTable family.toNat = some widths)
    (hrow : operationMatrix ⟨family, opcode, fieldsOfList (splitFields widths (w.toNat / 2 ^ 16))⟩ = some i) :
    decode w = .instr i := by
  obtain ⟨rfl, rfl⟩ := hw
  exact (decode_eq_instr_iff w i).2 ⟨_, decodeFields_of_layout hl, hrow⟩

/-- A fault of EXECUTE that consumes no input item, with the instruction's own tuple in the snapshot. -/
theorem faults_of_raise {i : Instr} {s : State} {k : FaultKind} (hguard : GuardPasses i)
    (he : executionOf i s = .raise k false) :
    Faults i s k i.toDecoded.family i.toDecoded.opcode i.toDecoded.f :=
  (exec_eq_runInstr i s).trans (runInstr_raise hguard he)

/-- An instruction that stages no more than a stack operation and a control transfer. -/
theorem transfersTo_of_stackOp {i : Instr} {s : State} {op : Option StackOp} {target : Option Word}
    (hguard : GuardPasses i) (he : executionOf i s = .stage { stack := op, target := target }) :
    TransfersTo i s (target.getD (s.pc + 1)) (s.commitStack op).stack := by
  refine ⟨_, (exec_eq_runInstr i s).trans (runInstr_stage hguard he), fun r hr1 _ => ?_, fun a => ?_, ?_, ?_,
    commitsTo_advance s _⟩
  · rw [State.advance_readReg _ _ hr1, State.commit_readReg, State.commitRegs_nil]
  · simp
  · rfl
  · simp [KeepsChannels]

/-- Settles O33: NOP stages nothing, so ADVANCE goes to the next index. -/
theorem nopAdvancesOnly : Obligations.NopAdvancesOnly :=
  ⟨fun _ hw => decode_of_hasCode hw rfl rfl, fun _ => transfersTo_of_target (target := none) rfl rfl⟩

/-! ### RET -/

theorem guardPasses_ret : GuardPasses .ret := List.forall_mem_nil _

theorem executionOf_ret_of_empty {s : State} (hs : s.stack = []) :
    executionOf .ret s = .raise .stackUnderflow false := by
  simp only [executionOf, popJump, hs]

theorem executionOf_ret_of_cons {s : State} {v : Word} {rest : List Word} (hs : s.stack = v :: rest) :
    executionOf .ret s = .stage { stack := some .pop, target := some v } := by
  simp only [executionOf, popJump, hs]

/-- Corner case (c) of R152: what a RET of a run pops is an address a CALL pushed. -/
theorem State.Inv.top_is_return_address {s : State} {v : Word} {rest : List Word} (h : s.Inv)
    (hs : s.stack = v :: rest) : 0 < v.toNat ∧ v.toNat ≤ s.progLength := by
  obtain ⟨-, -, -, -, -, haddr, -⟩ := h
  exact haddr v (hs ▸ List.mem_cons_self)

/-- Settles O34: RET raises on an empty stack, and otherwise stages the pop and the transfer to what it pops. -/
theorem returnPopsIntoPc : Obligations.ReturnPopsIntoPc := by
  refine ⟨fun w hw => decode_of_hasCode hw rfl rfl, fun s hempty => ?underflow, fun s v rest hs => ?pop,
    fun s v rest hinv hs => hinv.top_is_return_address hs⟩
  case underflow => exact faults_of_raise guardPasses_ret (executionOf_ret_of_empty hempty)
  case pop =>
    have hpop := transfersTo_of_stackOp guardPasses_ret (executionOf_ret_of_cons hs)
    rwa [State.commitStack_pop_stack, hs] at hpop

end Sys2Proof.Machine
end

section
/-!
PROOFS. Family 1 and the two channels (42_family1_io.md). The layer below says what PRINT and READ leave unchanged, and
what a COMMIT makes of other channel contents; the noninterference statements add that READ alone looks at its channel.
-/

namespace Sys2Proof.Machine

/-! ### PRINT and READ -/

/-- The first operand field of a family whose Layout Table row begins with a register. -/
theorem reg_f0_of_splitFields (w : InstrWord) (ns : List Nat) :
    reg (fieldsOfList (splitFields (8 :: ns) (w.toNat / 2 ^ 16))).f0 = w.extractLsb' 16 8 := by
  rw [splitFields_word]
  exact Laws.reg_field _

/-- An instruction that stages no more than register writes and channel effects. -/
theorem exec_of_channel_effects {i : Instr} {s : State} {regs : List (RegIdx × Word)} {out : Option Word}
    {consumes : Bool} (hguard : GuardPasses i)
    (he : executionOf i s = .stage { regs := regs, out := out, consumes := consumes }) :
    ∃ t, exec i s = .next t ∧ (∀ r, r ≠ 1 → t.readReg r = (s.commitRegs regs).readReg r) ∧
      t.output = (s.commitOutput out).output ∧ t.input = (s.consumeInput consumes).input ∧
      KeepsRegisters s t (destinations i) ∧ KeepsMemory s t ∧ t.stack = s.stack ∧ CommitsTo s t (s.pc + 1) := by
  have hexec := (exec_eq_runInstr i s).trans (runInstr_stage hguard he)
  refine ⟨_, hexec, fun r hr1 => ?_, by simp, by simp,
    fun r hr1 hr => (ran_of_exec hexec).keeps_other_registers hr1 hr, fun a => by simp, by simp,
    commitsTo_advance s _⟩
  rw [State.advance_readReg _ _ hr1, State.commit_readReg]

/-- Settles O36: PRINT has no destination, and stages one output event. -/
theorem printEmitsTheRegister : Obligations.PrintEmitsTheRegister := by
  refine ⟨fun w hw => decode_of_hasCode hw rfl ?row, fun a s => ?emits⟩
  case row => exact congrArg (fun r => some (Instr.print r)) (reg_f0_of_splitFields w [])
  case emits =>
    obtain ⟨t, hexec, -, hout, hin, hframe⟩ :=
      exec_of_channel_effects (i := .print a) (s := s) (List.forall_mem_nil _) rfl
    exact ⟨t, hexec, hout, hin, hframe⟩

/-- READ with a Malformed item there (R162): the item is consumed all the same. -/
theorem exec_read_malformed {d : RegIdx} {s : State} {rest : List InputItem} (hd : Writable d)
    (hin : s.input = .malformed :: rest) :
    exec (.read d) s = .next ((s.consumeInput true).takeFault .malformedInput (Instr.read d).toDecoded) := by
  have he : executionOf (.read d) s = .raise .malformedInput true := by simp only [executionOf, readItem, hin]
  exact (exec_eq_runInstr _ s).trans (runInstr_raise (guardPasses_read hd) he)

/-- What READ stages for an integer item. -/
theorem executionOf_read_int {s : State} {v : Int} {rest : List InputItem} (d : RegIdx)
    (hin : s.input = .int v :: rest) :
    executionOf (.read d) s = .stage { regs := [(d, wrap32 v)], consumes := true } := by
  simp only [executionOf, readItem, hin]

/-- Settles O37: the guard, and then the three things READ can find in its channel. -/
theorem readTakesOneItem : Obligations.ReadTakesOneItem := by
  refine ⟨fun w hw => decode_of_hasCode hw rfl ?row, fun d s hd => ?guard, fun d s => exec_read_waits,
    fun d s rest hd hin => ?malformed, fun d s v rest hd hin => ?int⟩
  case row => exact congrArg (fun r => some (Instr.read r)) (reg_f0_of_splitFields w [])
  case guard =>
    have hg : isGuarded d = true := by simpa [isGuarded] using hd
    exact faults_of_guarded_destination s (List.mem_singleton_self d) hg
  case malformed =>
    rw [exec_read_malformed hd hin, State.takeFault_consumeInput, State.consumeInput_true_input, hin]
    rfl
  case int =>
    obtain ⟨t, hexec, hregs, hout, htail, hframe⟩ :=
      exec_of_channel_effects (guardPasses_read hd) (executionOf_read_int d hin)
    obtain ⟨hd0, hd1⟩ := hd
    refine ⟨t, hexec, ?_, by rw [htail, State.consumeInput_true_input, hin]; rfl, hout, hframe⟩
    rw [hregs d hd1, State.commitRegs_cons, State.commitRegs_nil, State.readReg_writeReg_self s hd0 hd1, toNat_wrap32]

/-! ### Other channel contents -/

/-- COMMIT from a state that differs in the two channels only. -/
theorem State.commit_of_other_channels (s : State) (xs : List InputItem) (ys : List Word) (e : Effects) :
    State.commit { s with input := xs, output := ys } e =
      { s.commit e with
        input := (State.consumeInput { s with input := xs } e.consumes).input
        output := (State.commitOutput { s with output := ys } e.out).output } := by
  ext1
  case gpr =>
    rw [State.commit_gpr, State.commit_gpr]
    exact State.commitRegs_gpr_congr (by rfl) _
  case mem =>
    rw [State.commit_mem, State.commit_mem]
    exact State.commitMem_mem_congr (by rfl) _
  case stack =>
    rw [State.commit_stack, State.commit_stack]
    exact State.commitStack_stack_congr (by rfl) _
  case input =>
    rw [State.commit_input]
    exact State.consumeInput_input_congr (by rfl) _
  case output =>
    rw [State.commit_output]
    exact State.commitOutput_output_congr (by rfl) _
  all_goals simp

theorem State.commit_setInput (s : State) (xs : List InputItem) {e : Effects} (he : e.consumes = false) :
    State.commit { s with input := xs } e = { s.commit e with input := xs } := by
  rw [State.commit_of_other_channels s xs s.output e, he]
  ext1 <;> simp

theorem State.commit_setOutput (s : State) (ys : List Word) {e : Effects} (he : e.out = none) :
    State.commit { s with output := ys } e = { s.commit e with output := ys } := by
  rw [State.commit_of_other_channels s s.input ys e, he]
  ext1 <;> simp

/-- An event goes behind whatever was emitted before. -/
theorem State.commit_prependOutput (s : State) (ys : List Word) (e : Effects) :
    State.commit { s with output := ys ++ s.output } e =
      { s.commit e with output := ys ++ (s.commit e).output } := by
  rw [State.commit_of_other_channels s s.input (ys ++ s.output) e]
  ext1
  case output => cases hout : e.out <;> simp [hout]
  all_goals simp

/-- An item there already is consumed before any supplied later. -/
theorem State.consumeInput_supplyInput {s : State} (hin : s.input ≠ []) (xs : List InputItem) (c : Bool) :
    (s.supplyInput xs).consumeInput c = (s.consumeInput c).supplyInput xs := by
  cases c
  · rfl
  · ext1
    case input => simp [List.tail_append_of_ne_nil hin]
    all_goals rfl

theorem State.commit_supplyInput {s : State} (hin : s.input ≠ []) (xs : List InputItem) (e : Effects) :
    (s.supplyInput xs).commit e = (s.commit e).supplyInput xs := by
  have hbehind := State.consumeInput_supplyInput hin xs e.consumes
  rw [State.supplyInput] at hbehind ⊢
  rw [State.commit_of_other_channels s (s.input ++ xs) s.output e, hbehind]
  ext1 <;> simp

/-! ### The output channel -/

/-- No instruction looks at what was emitted. -/
theorem executionOf_setOutput (i : Instr) (s : State) (ys : List Word) :
    executionOf i { s with output := ys } = executionOf i s := by
  cases i <;> rfl

/-- Only PRINT stages an output event. -/
theorem staged_out_eq_none {i : Instr} {s : State} {e : Effects} (hprint : ∀ a, i ≠ .print a)
    (he : executionOf i s = .stage e) : e.out = none := by
  cases i
  case print a => exact absurd rfl (hprint a)
  case ret | read | call | st | ld | divi | jgtz | div =>
    simp only [executionOf, popJump, readItem, pushJump, storeCell, loadCell, divideImm, jumpIfPositive,
      divideChain] at he
    split at he <;> cases he <;> rfl
  all_goals
    cases he
    rfl

theorem unseen_setOutput {s : State} (hprint : ∀ a, ¬ AboutToRun s (.print a)) (ys : List Word) :
    Unseen (fun u => { u with output := ys }) (fun u => { u with output := ys }) s where
  runState := rfl
  fetchWord := rfl
  execution i _ := executionOf_setOutput i s ys
  stay := rfl
  fault c _ _ := by cases c <;> rfl
  commit i e hi he := by
    rw [State.commit_setOutput s ys (staged_out_eq_none (fun a h => hprint a (h ▸ hi)) he)]
    rfl

/-- Even PRINT does not see what was emitted before. -/
theorem unseen_prependOutput (s : State) (ys : List Word) :
    Unseen (fun u => { u with output := ys ++ u.output }) (fun u => { u with output := ys ++ u.output }) s where
  runState := rfl
  fetchWord := rfl
  execution i _ := executionOf_setOutput i s _
  stay := rfl
  fault c _ _ := by cases c <;> rfl
  commit _ e _ _ := by
    rw [State.commit_prependOutput]
    rfl

/-- With any output `ys` a step that is no PRINT ends with `ys`; with the output it has, that says it emits nothing. -/
theorem output_of_step {s t : State} (hprint : ∀ a, ¬ AboutToRun s (.print a)) (hst : step s = .next t) :
    t.output = s.output := by
  have hsame : step s = .next { t with output := s.output } := (unseen_setOutput hprint s.output).step_eq hst
  exact (congrArg State.output (Host.Outcome.next.inj (hst.symm.trans hsame)) :)

/-! ### The input channel

`Unseen` asks that a fault which consumes an item be unseen as well. Other input items are seen by such a fault, which
only READ takes, so the steps that are no READ are followed here by themselves. -/

/-- Only READ looks at the input items. -/
theorem executionOf_setInput {i : Instr} (hread : ∀ d, i ≠ .read d) (s : State) (xs : List InputItem) :
    executionOf i { s with input := xs } = executionOf i s := by
  cases i with
  | read d => exact absurd rfl (hread d)
  | _ => rfl

/-- Only READ consumes an item at COMMIT. -/
theorem staged_consumes_eq_false {i : Instr} {s : State} {e : Effects} (hread : ∀ d, i ≠ .read d)
    (he : executionOf i s = .stage e) : e.consumes = false := by
  cases i
  case read d => exact absurd rfl (hread d)
  case ret | call | st | ld | divi | jgtz | div =>
    simp only [executionOf, popJump, pushJump, storeCell, loadCell, divideImm, jumpIfPositive, divideChain] at he
    split at he <;> cases he <;> rfl
  all_goals
    cases he
    rfl

/-- The four things an instruction other than READ can do, from other input items. -/
theorem Ran.exec_setInput {i : Instr} {s t : State} (hran : Ran i s t) (hread : ∀ d, i ≠ .read d)
    (xs : List InputItem) : exec i { s with input := xs } = .next { t with input := xs } := by
  have hx := executionOf_setInput hread s xs
  rw [exec_eq_runInstr]
  cases hran with
  | guarded hg =>
    rw [runInstr_guarded hg]
    rfl
  | raised k c hp he =>
    cases c
    · rw [runInstr_raise hp (hx.trans he)]
      rfl
    · exact absurd he ((no_wait_or_consuming_fault hread s).2 k)
  | waited hp he => rw [runInstr_wait hp (hx.trans he)]
  | committed e hp he =>
    rw [runInstr_stage hp (hx.trans he), State.commit_setInput s xs (staged_consumes_eq_false hread he)]
    rfl

/-- A step that is no READ, from other input items, by what FETCH and DECODE answer. -/
theorem step_setInput {s t : State} (hread : ∀ d, ¬ AboutToRun s (.read d)) (hst : step s = .next t)
    (xs : List InputItem) : step { s with input := xs } = .next { t with input := xs } := by
  by_cases hr : s.runState = .running
  · rcases hw : s.fetchWord with _ | w
    · rw [step_of_no_word hr hw] at hst
      cases hst
      exact step_of_no_word (s := { s with input := xs }) hr hw
    · rcases hd : decode w with i | ⟨fam, opc⟩ | d
      · rw [step_of_instr hr hw hd] at hst
        rw [step_of_instr (s := { s with input := xs }) hr hw hd]
        exact (ran_of_exec hst).exec_setInput (fun d h => hread d ⟨w, ⟨hr, hw⟩, h ▸ hd⟩) xs
      · rw [step_of_unknownFamily hr hw hd] at hst
        cases hst
        exact step_of_unknownFamily (s := { s with input := xs }) hr hw hd
      · rw [step_of_unknownOpcode hr hw hd] at hst
        cases hst
        exact step_of_unknownOpcode (s := { s with input := xs }) hr hw hd
  · rw [step_of_not_running hr] at hst
    cases hst
    exact step_of_not_running (s := { s with input := xs }) hr

/-- A step that is no READ consumes nothing. -/
theorem input_of_step {s t : State} (hread : ∀ d, ¬ AboutToRun s (.read d)) (hst : step s = .next t) :
    t.input = s.input := by
  have hsame : step s = .next { t with input := s.input } := step_setInput hread hst s.input
  exact (congrArg State.input (Host.Outcome.next.inj (hst.symm.trans hsame)) :)

/-- Settles O28: what the two channels hold is carried along, but by READ and PRINT. -/
theorem onlyReadAndPrintUseTheChannels : Obligations.OnlyReadAndPrintUseTheChannels :=
  ⟨fun _ _ xs hread hst => ⟨input_of_step hread hst, step_setInput hread hst xs⟩,
    fun _ _ hprint hst => output_of_step hprint hst,
    fun s _ ys hst => (unseen_prependOutput s ys).step_eq hst⟩

/-- An instruction finds the same next item when more are supplied behind it. -/
theorem executionOf_supplyInput {s : State} (hin : s.input ≠ []) (i : Instr) (xs : List InputItem) :
    executionOf i (s.supplyInput xs) = executionOf i s := by
  cases i with
  | read d =>
    obtain ⟨x, rest, hx⟩ := List.exists_cons_of_ne_nil hin
    cases x <;> simp [executionOf, readItem, hx]
  | _ => rfl

theorem unseen_supplyInput {s : State} (hin : s.input ≠ []) (xs : List InputItem) :
    Unseen (State.supplyInput · xs) (State.supplyInput · xs) s where
  runState := rfl
  fetchWord := rfl
  execution i _ := executionOf_supplyInput hin i xs
  stay := rfl
  fault c _ _ := by
    rw [State.consumeInput_supplyInput hin]
    rfl
  commit _ e _ _ := by
    rw [State.commit_supplyInput hin]
    rfl

/-- Settles O30: with no item there the step is no READ, and with one there it looks no further. -/
theorem suppliedItemsWaitTheirTurn : Obligations.SuppliedItemsWaitTheirTurn := by
  intro s t xs hst hwait
  by_cases hin : s.input = []
  · have hread : ∀ d, ¬ AboutToRun s (.read d) := fun d hi => hwait d hi hin
    rw [State.supplyInput, State.supplyInput, input_of_step hread hst]
    exact step_setInput hread hst (s.input ++ xs)
  · exact (unseen_supplyInput hin xs).step_eq hst

end Sys2Proof.Machine
end

section
/-!
PROOFS. Family 2 (43_family2_compare.md). The five comparisons differ in their row of the Operation Matrix and in the
relation they test, so one lemma gives the rule of a comparison from its row and its operation.
-/

namespace Sys2Proof.Machine

/-! ### Register fields and the guard, for any family -/

/-- The second operand field of a family whose Layout Table row begins with two registers. -/
theorem reg_f1_of_splitFields (w : InstrWord) (ns : List Nat) :
    reg (fieldsOfList (splitFields (8 :: 8 :: ns) (w.toNat / 2 ^ 16))).f1 = w.extractLsb' 24 8 := by
  rw [splitFields_word, splitFields_word]
  exact Laws.reg_field _

/-- The third operand field of a family whose Layout Table row begins with three registers. -/
theorem reg_f2_of_splitFields (w : InstrWord) (ns : List Nat) :
    reg (fieldsOfList (splitFields (8 :: 8 :: 8 :: ns) (w.toNat / 2 ^ 16))).f2 = w.extractLsb' 32 8 := by
  rw [splitFields_word, splitFields_word, splitFields_word]
  exact Laws.reg_field _

theorem isGuarded_iff (d : RegIdx) : isGuarded d = true ↔ d = 0 ∨ d = 1 := by
  simp [isGuarded]

/-! ### What the five operations compute (D9) -/

theorem ltWord_eq (x y : Word) : ltWord x y = boolWord (x.toNat < y.toNat) := rfl

theorem gtWord_eq (x y : Word) : gtWord x y = boolWord (x.toNat > y.toNat) := rfl

/-- Equal words are words with equal unsigned values. -/
theorem eqWord_eq (x y : Word) : eqWord x y = boolWord (x.toNat = y.toNat) :=
  congrArg boolWord (decide_eq_decide.2 BitVec.toNat_inj.symm)

theorem geWord_eq (x y : Word) : geWord x y = boolWord (x.toNat ≥ y.toNat) := rfl

theorem leWord_eq (x y : Word) : leWord x y = boolWord (x.toNat ≤ y.toNat) := rfl

/-! ### The rule of a comparison -/

/-- An instruction in row (2, `opcode`) that writes `bool(rel(x[A], x[B]))` to x[D], its one destination. -/
theorem comparisonRule_of_row {mk : RegIdx → RegIdx → RegIdx → Instr} {opcode : Byte} {rel : Nat → Nat → Bool}
    {op : Word → Word → Word}
    (hrow : ∀ f : Fields, operationMatrix ⟨2, opcode, f⟩ = some (mk (reg f.f0) (reg f.f1) (reg f.f2)))
    (hdest : ∀ d a b, destinations (mk d a b) = [d])
    (hexec : ∀ d a b, executionOf (mk d a b) = regReg op d a b)
    (hop : ∀ x y, op x y = boolWord (rel x.toNat y.toNat)) : ComparisonRule mk opcode rel := by
  refine ⟨fun w hw => decode_of_hasCode hw rfl ?encoding, fun d a b s hd => ?guard, fun d a b s hd => ?result⟩
  case encoding =>
    rw [hrow, reg_f0_of_splitFields, reg_f1_of_splitFields, reg_f2_of_splitFields]
  case guard =>
    have htuple : (mk d a b).toDecoded = ⟨2, opcode, ⟨field d, field a, field b, 0, 0, 0⟩⟩ := by
      have hown := hrow ⟨field d, field a, field b, 0, 0, 0⟩
      simp only [Laws.reg_field] at hown
      rw [toDecoded_of_operationMatrix hown]
      simp [operandFields]
    have hfault := faults_of_guarded_destination s (hdest d a b ▸ List.mem_singleton_self d) ((isGuarded_iff d).2 hd)
    rw [htuple] at hfault
    exact hfault
  case result =>
    refine writesRegister_of_stageReg (hdest d a b) hd ?_
    rw [hexec, regReg, hop, boolWord]

/-- Settles O38: each comparison has its row, its one destination, and an operation on unsigned values. -/
theorem comparisonsWriteOneOrZero : Obligations.ComparisonsWriteOneOrZero :=
  ⟨comparisonRule_of_row (fun _ => rfl) (fun _ _ _ => rfl) (fun _ _ _ => rfl) ltWord_eq,
    comparisonRule_of_row (fun _ => rfl) (fun _ _ _ => rfl) (fun _ _ _ => rfl) gtWord_eq,
    comparisonRule_of_row (fun _ => rfl) (fun _ _ _ => rfl) (fun _ _ _ => rfl) eqWord_eq,
    comparisonRule_of_row (fun _ => rfl) (fun _ _ _ => rfl) (fun _ _ _ => rfl) geWord_eq,
    comparisonRule_of_row (fun _ => rfl) (fun _ _ _ => rfl) (fun _ _ _ => rfl) leWord_eq⟩

end Sys2Proof.Machine
end

section
/-!
PROOFS. Family 3 (44_family3_imm_jump.md): LI, JMP and CALL, and the RET that undoes a CALL. The three share the layout
of a register and a 32-bit immediate, so one lemma gives the encoding of each from its row of the Operation Matrix.
-/

namespace Sys2Proof.Machine

/-! ### The encoding -/

/-- The second operand field of a family whose Layout Table row begins with a register and a 32-bit immediate. -/
theorem f1_of_splitFields_imm (w : InstrWord) (ns : List Nat) :
    (fieldsOfList (splitFields (8 :: 32 :: ns) (w.toNat / 2 ^ 16))).f1 = w.extractLsb' 24 32 := by
  rw [splitFields_word, splitFields_word]
  exact BitVec.setWidth_eq _

theorem decode_of_family3_row {mk : RegIdx → Word → Instr} {opcode : Byte}
    (hrow : ∀ f : Fields, operationMatrix ⟨3, opcode, f⟩ = some (mk (reg f.f0) f.f1)) {w : InstrWord}
    (hw : HasCode w 3 opcode) : decode w = .instr (mk (w.extractLsb' 16 8) (w.extractLsb' 24 32)) := by
  refine decode_of_hasCode hw rfl ?_
  rw [hrow, reg_f0_of_splitFields, f1_of_splitFields_imm]

/-! ### LI -/

/-- Settles O39: LI stages one register write, of its immediate. -/
theorem loadImmediateStoresExactly : Obligations.LoadImmediateStoresExactly := by
  refine ⟨fun w hw => decode_of_family3_row (fun _ => rfl) hw, fun d imm s hd => ?guard, fun d imm s hd => ?result⟩
  case guard => exact faults_of_guarded_destination s (List.mem_singleton_self d) ((isGuarded_iff d).2 hd)
  case result => exact writesRegister_of_stageReg rfl hd rfl

/-! ### JMP -/

theorem transfersTo_jmp (b : RegIdx) (imm : Word) (s : State) :
    TransfersTo (.jmp b imm) s (s.readReg b + imm) s.stack :=
  transfersTo_of_stageJump rfl (executionOf_jmp b imm s)

/-- ADVANCE to an index beyond N leaves the core Running, with no word to fetch. -/
theorem step_of_commitsTo_beyond {s t : State} {p : Word} (h : CommitsTo s t p) (hr : s.runState = .running)
    (hbeyond : s.progLength < p.toNat) : step t = .next (t.takeFault .fetchOutOfRange Decoded.zero) := by
  obtain ⟨rfl, -, hrun, -, hprog, -⟩ := h
  have hrunning : t.runState = .running := by rw [hrun, if_neg hbeyond.ne', hr]
  refine step_of_no_word hrunning (t.fetchWord_eq_none_iff.2 ?_)
  rw [State.progLength, hprog]
  exact hbeyond.le

/-- Settles O40: JMP stages its target, and a target beyond N is seen by the next FETCH. -/
theorem jumpAddsModulo : Obligations.JumpAddsModulo := by
  refine ⟨fun w hw => decode_of_family3_row (fun _ => rfl) hw, transfersTo_jmp,
    fun b imm s t hr hexec hbeyond => ?beyond⟩
  case beyond =>
    obtain ⟨u, hu, -, -, -, -, hcommits⟩ := transfersTo_jmp b imm s
    obtain rfl : t = u := Host.Outcome.next.inj (hexec.symm.trans hu)
    rw [step_of_commitsTo_beyond hcommits hr hbeyond]
    obtain ⟨hpc, -⟩ := hcommits
    rw [State.takeFault, hpc]
    rfl

/-! ### CALL -/

theorem guardPasses_call (b : RegIdx) (imm : Word) : GuardPasses (.call b imm) := List.forall_mem_nil _

/-- `depth(STACK) == STACK_DEPTH` (R31). -/
theorem State.stackFull_iff (s : State) : s.stackFull = true ↔ s.cfg.stackDepth = .finite s.stack.length := by
  rw [← Bool.not_eq_false, State.stackFull_eq_false_iff]
  push Not
  exact ⟨fun ⟨n, hn, hlen⟩ => hlen ▸ hn, fun h => ⟨_, h, rfl⟩⟩

theorem executionOf_call_full {s : State} (h : s.stackFull = true) (b : RegIdx) (imm : Word) :
    executionOf (.call b imm) s = .raise .stackOverflow false := by
  rw [executionOf, pushJump, if_pos h]

theorem executionOf_call_not_full {s : State} (h : ¬ s.stackFull = true) (b : RegIdx) (imm : Word) :
    executionOf (.call b imm) s =
      .stage { stack := some (.push (s.pc + 1)), target := some (s.readReg b + imm) } := by
  rw [executionOf, pushJump, if_neg h, addWord_eq, s.jumpTarget_eq]

/-- Settles O41: CALL raises on a full stack, and otherwise stages the push and the transfer. -/
theorem callPushesTheNextIndex : Obligations.CallPushesTheNextIndex := by
  refine ⟨fun w hw => decode_of_family3_row (fun _ => rfl) hw, fun b imm s hfull => ?overflow,
    fun b imm s hfree => ?push⟩
  case overflow =>
    exact faults_of_raise (guardPasses_call b imm) (executionOf_call_full (s.stackFull_iff.2 hfull) b imm)
  case push =>
    exact transfersTo_of_stackOp (guardPasses_call b imm)
      (executionOf_call_not_full (mt s.stackFull_iff.1 hfree) b imm)

/-- A CALL that commits found the stack not full (R31), so it pushed the index after its own. -/
theorem stack_of_call_commits {b : RegIdx} {imm : Word} {s t : State} (hcall : exec (.call b imm) s = .next t)
    (hn : t.icount = s.icount + 1) : t.stack = (s.pc + 1) :: s.stack := by
  obtain ⟨e, he, rfl⟩ := (ran_of_exec hcall).commits_of_icount hn
  by_cases hfull : s.stackFull = true
  · rw [executionOf_call_full hfull] at he
    cases he
  · rw [executionOf_call_not_full hfull] at he
    cases he
    simp

/-- Settles O35: what the CALL pushed is what the RET pops. -/
theorem callReturnIsBalanced : Obligations.CallReturnIsBalanced := by
  intro s t u b imm hcall hn hstack
  have htop : u.stack = (s.pc + 1) :: s.stack := hstack.trans (stack_of_call_commits hcall hn)
  obtain ⟨-, -, hpops, -⟩ := returnPopsIntoPc
  obtain ⟨v, hexec, -, -, hrest, -, hpc, -⟩ := hpops u (s.pc + 1) s.stack htop
  exact ⟨v, hexec, hpc, hrest⟩

end Sys2Proof.Machine
end

section
/-!
PROOFS. Family 4 (45_family4_reg_imm.md). Its fifteen operations share the layout of two registers and a 32-bit
immediate, so the encoding, the write guard and the rule of a register-immediate operation each follow from the row of
the Operation Matrix; ST, LD, DIVI and JGTZ add what their executions choose to stage.
-/

namespace Sys2Proof.Machine

/-! ### A row of family 4: encoding and guard -/

/-- The third operand field of a family whose Layout Table row begins with two registers and a 32-bit immediate. -/
theorem f2_of_splitFields_imm (w : InstrWord) (ns : List Nat) :
    (fieldsOfList (splitFields (8 :: 8 :: 32 :: ns) (w.toNat / 2 ^ 16))).f2 = w.extractLsb' 32 32 := by
  rw [splitFields_word, splitFields_word, splitFields_word]
  exact BitVec.setWidth_eq _

/-- `mk` builds the instructions of row (4, `opcode`) of the Operation Matrix (R92). -/
abbrev Family4Row (mk : RegIdx → RegIdx → Word → Instr) (opcode : Byte) : Prop :=
  ∀ f : Fields, operationMatrix ⟨4, opcode, f⟩ = some (mk (reg f.f0) (reg f.f1) f.f2)

section

variable {mk : RegIdx → RegIdx → Word → Instr} {opcode : Byte}

theorem Family4Row.encoding (hrow : Family4Row mk opcode) : Family4Encoding mk opcode := by
  refine fun w hw => decode_of_hasCode hw rfl ?_
  rw [hrow, reg_f0_of_splitFields, reg_f1_of_splitFields, f2_of_splitFields_imm]

/-- What a fault snapshot reports of an instruction of the row. -/
theorem Family4Row.toDecoded_eq (hrow : Family4Row mk opcode) (d a : RegIdx) (imm : Word) :
    (mk d a imm).toDecoded = ⟨4, opcode, ⟨field d, field a, imm, 0, 0, 0⟩⟩ := by
  have hown := hrow ⟨field d, field a, imm, 0, 0, 0⟩
  simp only [Laws.reg_field] at hown
  rw [toDecoded_of_operationMatrix hown]
  simp [operandFields]

theorem Family4Row.guard (hrow : Family4Row mk opcode)
    (hdest : ∀ d a imm, destinations (mk d a imm) = [d]) : Family4Guard mk opcode := by
  intro d a imm s hd
  have hfault :=
    faults_of_guarded_destination s (hdest d a imm ▸ List.mem_singleton_self d) ((isGuarded_iff d).2 hd)
  rw [hrow.toDecoded_eq] at hfault
  exact hfault

/-! ### Register-immediate operations -/

/-- An instruction of row (4, `opcode`) that writes `op(x[S], imm)`, as the model computes it, to its one
destination. -/
theorem Family4Row.regImmRule {op modelOp : Word → Word → Word} (hrow : Family4Row mk opcode)
    (hdest : ∀ d a imm, destinations (mk d a imm) = [d])
    (hexec : ∀ d a imm, executionOf (mk d a imm) = regImm modelOp d a imm)
    (hop : ∀ x imm, modelOp x imm = op x imm) : RegImmRule mk opcode op := by
  refine ⟨hrow.encoding, hrow.guard hdest, fun d a imm s hd => writesRegister_of_stageReg (hdest d a imm) hd ?_⟩
  rw [hexec, regImm, hop]

end

/-- Settles O45: the three operations modulo 2^32 are those of 32-bit words. -/
theorem immediateArithmeticWraps : Obligations.ImmediateArithmeticWraps :=
  ⟨Family4Row.regImmRule (fun _ => rfl) (fun _ _ _ => rfl) (fun _ _ _ => rfl) addWord_eq,
    Family4Row.regImmRule (fun _ => rfl) (fun _ _ _ => rfl) (fun _ _ _ => rfl) subWord_eq,
    Family4Row.regImmRule (fun _ => rfl) (fun _ _ _ => rfl) (fun _ _ _ => rfl) mulWord_eq⟩

/-- Settles O47: the model's test of the amount against 32 does not change the formula of R197 and R198. -/
theorem shiftsUseTheWholeAmount : Obligations.ShiftsUseTheWholeAmount :=
  ⟨Family4Row.regImmRule (fun _ => rfl) (fun _ _ _ => rfl) (fun _ _ _ => rfl) shrWord_eq,
    Family4Row.regImmRule (fun _ => rfl) (fun _ _ _ => rfl) (fun _ _ _ => rfl) shlWord_eq⟩

theorem andWord_eq (x y : Word) : andWord x y = x &&& y := rfl

theorem orWord_eq (x y : Word) : orWord x y = x ||| y := rfl

theorem xorWord_eq (x y : Word) : xorWord x y = x ^^^ y := rfl

/-- Settles O48: the model's three operations are the bitwise ones of 32-bit words by definition. -/
theorem immediateLogicIsBitwise : Obligations.ImmediateLogicIsBitwise :=
  ⟨Family4Row.regImmRule (fun _ => rfl) (fun _ _ _ => rfl) (fun _ _ _ => rfl) andWord_eq,
    Family4Row.regImmRule (fun _ => rfl) (fun _ _ _ => rfl) (fun _ _ _ => rfl) orWord_eq,
    Family4Row.regImmRule (fun _ => rfl) (fun _ _ _ => rfl) (fun _ _ _ => rfl) xorWord_eq⟩

/-- `bool(c)` of a decided condition (00_scope.md R9). -/
theorem boolWord_decide (p : Prop) [Decidable p] : boolWord (decide p) = if p then 1 else 0 := by
  simp only [boolWord, decide_eq_true_eq]

/-- Settles O49: the comparisons of family 2, with the immediate as second operand. -/
theorem immediateComparisons : Obligations.ImmediateComparisons :=
  ⟨Family4Row.regImmRule (fun _ => rfl) (fun _ _ _ => rfl) (fun _ _ _ => rfl) fun _ _ => boolWord_decide _,
    Family4Row.regImmRule (fun _ => rfl) (fun _ _ _ => rfl) (fun _ _ _ => rfl) fun _ _ => boolWord_decide _,
    Family4Row.regImmRule (fun _ => rfl) (fun _ _ _ => rfl) (fun _ _ _ => rfl) fun _ _ => boolWord_decide _⟩

/-! ### DIVI -/

theorem guardPasses_divi {d : RegIdx} (hd : Writable d) (a : RegIdx) (imm : Word) : GuardPasses (.divi d a imm) :=
  List.forall_mem_singleton.2 hd

theorem executionOf_divi_zero (d a : RegIdx) (s : State) :
    executionOf (.divi d a 0) s = .raise .arithmeticFault false := by
  rw [executionOf, divideImm, if_pos rfl]

theorem executionOf_divi_nonzero {imm : Word} (h : imm ≠ 0) (d a : RegIdx) (s : State) :
    executionOf (.divi d a imm) s = stageReg d (divWord (s.readReg a) imm) := by
  rw [executionOf, divideImm, if_neg h]

/-- Settles O46: past the guard, DIVI raises for a zero immediate and otherwise stages the quotient. -/
theorem immediateDivisionIsUnsigned : Obligations.ImmediateDivisionIsUnsigned := by
  have hrow : Family4Row .divi 5 := fun _ => rfl
  refine ⟨hrow.encoding, hrow.guard fun _ _ _ => rfl, fun d a s hd => ?zero, fun d a imm s hd himm => ?quotient⟩
  case zero => exact faults_of_raise (guardPasses_divi hd a 0) (executionOf_divi_zero d a s)
  case quotient => exact writesRegister_of_stageReg rfl hd (executionOf_divi_nonzero himm d a s)

/-! ### The effective address and its bound -/

theorem State.effectiveAddress_eq (s : State) (base : RegIdx) (imm : Word) :
    s.effectiveAddress base imm = s.readReg base + imm :=
  addWord_eq _ _

theorem State.inRange_iff (s : State) (a : Word) : s.inRange a = true ↔ a.toNat < s.cfg.memSize := by
  simp only [State.inRange, decide_eq_true_eq]

theorem State.not_inRange_iff (s : State) (a : Word) : ¬ s.inRange a = true ↔ s.cfg.memSize ≤ a.toNat := by
  rw [s.inRange_iff, Nat.not_lt]

/-! ### ST -/

theorem guardPasses_st (f0 f1 : RegIdx) (imm : Word) : GuardPasses (.st f0 f1 imm) := List.forall_mem_nil _

/-- The two roles of ST, read off `ST_ROLES` (R191). -/
theorem stRoles_eq {roles : StRoles} {f0 f1 data base : RegIdx}
    (h : (roles = .dataF0BaseF1 ∧ data = f0 ∧ base = f1) ∨ (roles = .dataF1BaseF0 ∧ data = f1 ∧ base = f0)) :
    data = stData roles f0 f1 ∧ base = stBase roles f0 f1 := by
  obtain ⟨rfl, rfl, rfl⟩ | ⟨rfl, rfl, rfl⟩ := h <;> exact ⟨rfl, rfl⟩

theorem executionOf_st_out_of_range {f0 f1 : RegIdx} {imm : Word} {s : State}
    (h : s.cfg.memSize ≤ (s.effectiveAddress (stBase s.cfg.stRoles f0 f1) imm).toNat) :
    executionOf (.st f0 f1 imm) s = .raise .outOfRangeMemoryAccess false := by
  rw [executionOf, storeCell, if_neg ((s.not_inRange_iff _).2 h)]

theorem executionOf_st_in_range {f0 f1 : RegIdx} {imm : Word} {s : State}
    (h : (s.effectiveAddress (stBase s.cfg.stRoles f0 f1) imm).toNat < s.cfg.memSize) :
    executionOf (.st f0 f1 imm) s =
      .stage { mem := some (s.effectiveAddress (stBase s.cfg.stRoles f0 f1) imm,
                            s.readReg (stData s.cfg.stRoles f0 f1)) } := by
  rw [executionOf, storeCell, if_pos ((s.inRange_iff _).2 h)]

/-- An instruction that stages one memory write and nothing else. -/
theorem exec_of_mem_effect {i : Instr} {s : State} {a v : Word} (hguard : GuardPasses i)
    (he : executionOf i s = .stage { mem := some (a, v) }) :
    ∃ t, exec i s = .next t ∧ t.mem = s.mem.write a.toNat v ∧ KeepsRegisters s t [] ∧ t.stack = s.stack ∧
      KeepsChannels s t ∧ CommitsTo s t (s.pc + 1) := by
  refine ⟨_, (exec_eq_runInstr i s).trans (runInstr_stage hguard he), by simp, fun r hr1 _ => ?_, by simp, ?_,
    commitsTo_advance s _⟩
  · rw [State.advance_readReg _ _ hr1, State.commit_readReg, State.commitRegs_nil]
  · simp [KeepsChannels]

/-- Settles O42: ST raises beyond MEM_SIZE, and otherwise stages the write of one cell. -/
theorem storeWritesOneCell : Obligations.StoreWritesOneCell := by
  have hrow : Family4Row .st 0 := fun _ => rfl
  refine ⟨hrow.encoding, State.effectiveAddress_eq, fun f0 f1 imm s data base hroles => ?_⟩
  obtain ⟨rfl, rfl⟩ := stRoles_eq hroles
  refine ⟨fun hout => ?outOfRange, fun hin => ?store⟩
  case outOfRange => exact faults_of_raise (guardPasses_st f0 f1 imm) (executionOf_st_out_of_range hout)
  case store =>
    obtain ⟨t, hexec, hmem, hframe⟩ := exec_of_mem_effect (guardPasses_st f0 f1 imm) (executionOf_st_in_range hin)
    refine ⟨t, hexec, ?_, fun a ha => ?_, hframe⟩
    · rw [hmem, Memory.read_write, if_pos rfl]
    · rw [hmem, Memory.read_write, if_neg ha]

/-! ### LD -/

theorem guardPasses_ld {d : RegIdx} (hd : Writable d) (b : RegIdx) (imm : Word) : GuardPasses (.ld d b imm) :=
  List.forall_mem_singleton.2 hd

theorem executionOf_ld_out_of_range {b : RegIdx} {imm : Word} {s : State}
    (h : s.cfg.memSize ≤ (s.readReg b + imm).toNat) (d : RegIdx) :
    executionOf (.ld d b imm) s = .raise .outOfRangeMemoryAccess false := by
  rw [executionOf, loadCell, s.effectiveAddress_eq, if_neg ((s.not_inRange_iff _).2 h)]

theorem executionOf_ld_in_range {b : RegIdx} {imm : Word} {s : State}
    (h : (s.readReg b + imm).toNat < s.cfg.memSize) (d : RegIdx) :
    executionOf (.ld d b imm) s = stageReg d (s.mem.read (s.readReg b + imm).toNat) := by
  rw [executionOf, loadCell, s.effectiveAddress_eq, if_pos ((s.inRange_iff _).2 h)]

/-- Settles O43: past the guard, LD raises beyond MEM_SIZE and otherwise stages the cell it reads. -/
theorem loadReadsOneCell : Obligations.LoadReadsOneCell := by
  have hrow : Family4Row .ld 1 := fun _ => rfl
  refine ⟨hrow.encoding, hrow.guard fun _ _ _ => rfl, fun d b imm s hd hout => ?outOfRange,
    fun d b imm s hd hin => ?load⟩
  case outOfRange => exact faults_of_raise (guardPasses_ld hd b imm) (executionOf_ld_out_of_range hout d)
  case load => exact writesRegister_of_stageReg rfl hd (executionOf_ld_in_range hin d)

/-! ### JGTZ -/

/-- The words above zero as signed (D10). -/
theorem toInt_pos_iff (v : Word) : 0 < v.toInt ↔ 1 ≤ v.toNat ∧ v.toNat ≤ 0x7FFFFFFF := by
  have hv := v.isLt
  rw [BitVec.toInt_eq_toNat_cond]
  split <;> omega

/-- Settles O50: JGTZ stages its target when x[C] is above zero as signed, and otherwise nothing. -/
theorem jumpIfGreaterThanZero : Obligations.JumpIfGreaterThanZero := by
  have hrow : Family4Row .jgtz 14 := fun _ => rfl
  refine ⟨hrow.encoding, toInt_pos_iff, fun c b imm s hpos => ?taken, fun c b imm s hpos => ?notTaken⟩
  case taken => exact transfersTo_of_stageJump rfl (executionOf_jgtz_taken hpos b imm)
  case notTaken => exact transfersTo_of_target (target := none) rfl (executionOf_jgtz_not_taken hpos b imm)

end Sys2Proof.Machine
end

section
/-!
PROOFS. Family 5 (46_family5_multi.md). Its eight operations share the layout of six registers, so the encoding and the
snapshot of a fault follow from the row of the Operation Matrix. The chained operations fold over the chain of R221,
from which the two-operand sequences of E8 follow; DIV and SHUF each have a loop that is tied to its reference.
-/

namespace Sys2Proof.Machine

/-! ### A row of family 5: encoding and faults -/

/-- The six operand fields of a family whose Layout Table row is six registers. -/
theorem fieldsOfList_splitFields_regs (w : InstrWord) :
    fieldsOfList (splitFields [8, 8, 8, 8, 8, 8] (w.toNat / 2 ^ 16)) =
      ⟨field (w.extractLsb' 16 8), field (w.extractLsb' 24 8), field (w.extractLsb' 32 8),
        field (w.extractLsb' 40 8), field (w.extractLsb' 48 8), field (w.extractLsb' 56 8)⟩ := by
  simp only [splitFields_word]
  rfl

/-- `mk` builds the instructions of row (5, `opcode`) of the Operation Matrix (R92). -/
abbrev Family5Row (mk : RegIdx → RegIdx → RegIdx → RegIdx → RegIdx → RegIdx → Instr) (opcode : Byte) : Prop :=
  ∀ f : Fields, operationMatrix ⟨5, opcode, f⟩ =
    some (mk (reg f.f0) (reg f.f1) (reg f.f2) (reg f.f3) (reg f.f4) (reg f.f5))

section

variable {mk : RegIdx → RegIdx → RegIdx → RegIdx → RegIdx → RegIdx → Instr} {opcode : Byte}

theorem Family5Row.encoding (hrow : Family5Row mk opcode) : Family5Encoding mk opcode := by
  refine fun w hw => decode_of_hasCode hw rfl ?_
  rw [hrow, fieldsOfList_splitFields_regs]
  simp only [Laws.reg_field]

/-- What a fault snapshot reports of an instruction of the row. -/
theorem Family5Row.toDecoded_eq (hrow : Family5Row mk opcode) (a b c x y z : RegIdx) :
    (mk a b c x y z).toDecoded = ⟨5, opcode, ⟨field a, field b, field c, field x, field y, field z⟩⟩ := by
  have hown := hrow ⟨field a, field b, field c, field x, field y, field z⟩
  simp only [Laws.reg_field] at hown
  rw [toDecoded_of_operationMatrix hown]
  simp [operandFields]

/-- A fault with the instruction's own tuple is one with its row and its six fields. -/
theorem Family5Row.faults (hrow : Family5Row mk opcode) {a b c x y z : RegIdx} {s : State} {k : FaultKind}
    (h : Faults (mk a b c x y z) s k (mk a b c x y z).toDecoded.family (mk a b c x y z).toDecoded.opcode
      (mk a b c x y z).toDecoded.f) :
    Faults (mk a b c x y z) s k 5 opcode ⟨wide a, wide b, wide c, wide x, wide y, wide z⟩ := by
  rw [hrow.toDecoded_eq] at h
  exact h

/-- The write guard of a row, for any register in DEST. -/
theorem Family5Row.guard (hrow : Family5Row mk opcode) {a b c x y z d : RegIdx} (s : State)
    (hmem : d ∈ destinations (mk a b c x y z)) (hd : d = 0 ∨ d = 1) :
    Faults (mk a b c x y z) s .illegalRegisterWrite 5 opcode ⟨wide a, wide b, wide c, wide x, wide y, wide z⟩ :=
  hrow.faults (faults_of_guarded_destination s hmem ((isGuarded_iff d).2 hd))

end

/-! ### The source chain (R221, D13) -/

/-- The model's chain is f[2], f[3] and the chained sources of the statements. -/
theorem chain_eq (s1 s2 s3 s4 : RegIdx) : chain s1 s2 s3 s4 = s1 :: s2 :: chained s3 s4 := by
  rw [chain, chained]
  by_cases h3 : s3 = 0
  · rw [if_pos h3, List.takeWhile_cons_of_neg (by simpa using h3)]
  · rw [if_neg h3, List.takeWhile_cons_of_pos (by simpa using h3)]
    by_cases h4 : s4 = 0
    · rw [if_pos h4, List.takeWhile_cons_of_neg (by simpa using h4)]
    · rw [if_neg h4, List.takeWhile_cons_of_pos (by simpa using h4), List.takeWhile_nil]

theorem State.chainValues_eq (s : State) (s1 s2 s3 s4 : RegIdx) :
    s.chainValues s1 s2 s3 s4 = s.readReg s1 :: (s2 :: chained s3 s4).map s.readReg := by
  rw [State.chainValues, chain_eq, List.map_cons]

theorem chained_zero_left (s4 : RegIdx) : chained 0 s4 = [] := if_pos rfl

theorem chained_zero_right {s3 : RegIdx} (h : s3 ≠ 0) : chained s3 0 = [s3] := by
  rw [chained, if_neg h, if_pos rfl]

theorem chained_pair {s3 s4 : RegIdx} (h3 : s3 ≠ 0) (h4 : s4 ≠ 0) : chained s3 s4 = [s3, s4] := by
  rw [chained, if_neg h3, if_neg h4]

/-! ### MUL, ADD, SUB, AND, OR, XOR -/

section

variable {mk : RegIdx → RegIdx → RegIdx → RegIdx → RegIdx → RegIdx → Instr} {opcode : Byte} {op : Word → Word → Word}

/-- An instruction of row (5, `opcode`) that folds an operation over its chain into f[0], its one destination. -/
theorem Family5Row.chainRule {modelOp : Word → Word → Word} (hrow : Family5Row mk opcode)
    (hdest : ∀ d e s1 s2 s3 s4, destinations (mk d e s1 s2 s3 s4) = [d])
    (hexec : ∀ d e s1 s2 s3 s4, executionOf (mk d e s1 s2 s3 s4) = regChain modelOp d s1 s2 s3 s4)
    (hop : ∀ x y, modelOp x y = op x y) : ChainRule mk opcode op := by
  obtain rfl : modelOp = op := funext₂ hop
  refine ⟨hrow.encoding, fun d e s1 s2 s3 s4 s hd => ?guard, fun d e s1 s2 s3 s4 s hd => ?result⟩
  case guard => exact hrow.guard s (hdest d e s1 s2 s3 s4 ▸ List.mem_singleton_self d) hd
  case result =>
    refine writesRegister_of_stageReg (hdest d e s1 s2 s3 s4) hd ?_
    rw [hexec, regChain, State.chainValues_eq, List.map_cons, chainFold_cons_cons]

/-- E8: a two-operand instruction leaves the later sources as they were, so the next one takes the fold a step
further. -/
theorem ChainRule.splits (hrule : ChainRule mk opcode op) : ChainSplits mk := by
  intro d e s1 s2 s3 s4 s hd ⟨h30, h31⟩ h3d ⟨h40, h41⟩ h4d
  obtain ⟨-, -, hwrites⟩ := hrule
  obtain ⟨t3, ht3, hvt3, -⟩ := hwrites d e s1 s2 s3 0 s hd
  obtain ⟨t4, ht4, hvt4, -⟩ := hwrites d e s1 s2 s3 s4 s hd
  obtain ⟨u2, hu2, hvu2, hkeep2, -⟩ := hwrites d e s1 s2 0 0 s hd
  obtain ⟨u3, hu3, hvu3, hkeep3, -⟩ := hwrites d e d s3 0 0 u2 hd
  obtain ⟨u4, hu4, hvu4, -⟩ := hwrites d e d s4 0 0 u3 hd
  rw [chained_zero_right h30] at hvt3
  rw [chained_pair h30 h40] at hvt4
  rw [chained_zero_left] at hvu2 hvu3 hvu4
  have hs3 : u2.readReg s3 = s.readReg s3 := hkeep2 s3 h31 (mt List.mem_singleton.1 h3d)
  have hs4 : u3.readReg s4 = s.readReg s4 :=
    (hkeep3 s4 h41 (mt List.mem_singleton.1 h4d)).trans (hkeep2 s4 h41 (mt List.mem_singleton.1 h4d))
  have hthird : u3.readReg d = op (op (s.readReg s1) (s.readReg s2)) (s.readReg s3) := by
    rw [hvu3, ← hs3]
    exact congrArg (op · _) hvu2
  refine ⟨t3, t4, u2, u3, u4, ht3, ht4, hu2, hu3, hu4, hthird.trans hvt3.symm, ?_⟩
  calc u4.readReg d = op (u3.readReg d) (u3.readReg s4) := hvu4
    _ = op (op (op (s.readReg s1) (s.readReg s2)) (s.readReg s3)) (s.readReg s4) := by rw [hthird, hs4]
    _ = t4.readReg d := hvt4.symm

end

/-- Settles O52: each has its row, its one destination, and an operation that is the one of 32-bit words. -/
theorem arithmeticChainsFoldLeft : Obligations.ArithmeticChainsFoldLeft :=
  ⟨Family5Row.chainRule (fun _ => rfl) (fun _ _ _ _ _ _ => rfl) (fun _ _ _ _ _ _ => rfl) mulWord_eq,
    Family5Row.chainRule (fun _ => rfl) (fun _ _ _ _ _ _ => rfl) (fun _ _ _ _ _ _ => rfl) addWord_eq,
    Family5Row.chainRule (fun _ => rfl) (fun _ _ _ _ _ _ => rfl) (fun _ _ _ _ _ _ => rfl) subWord_eq⟩

/-- Settles O53: as for O52, with the bitwise operations. -/
theorem logicChainsFoldLeft : Obligations.LogicChainsFoldLeft :=
  ⟨Family5Row.chainRule (fun _ => rfl) (fun _ _ _ _ _ _ => rfl) (fun _ _ _ _ _ _ => rfl) andWord_eq,
    Family5Row.chainRule (fun _ => rfl) (fun _ _ _ _ _ _ => rfl) (fun _ _ _ _ _ _ => rfl) orWord_eq,
    Family5Row.chainRule (fun _ => rfl) (fun _ _ _ _ _ _ => rfl) (fun _ _ _ _ _ _ => rfl) xorWord_eq⟩

/-- Settles O54: the splitting follows from the rule of a chained operation, whatever it folds. -/
theorem chainsEqualTwoOperandSequences : Obligations.ChainsEqualTwoOperandSequences := by
  obtain ⟨hmul, hadd, hsub⟩ := arithmeticChainsFoldLeft
  obtain ⟨hand, hor, hxor⟩ := logicChainsFoldLeft
  exact ⟨hmul.splits, hadd.splits, hsub.splits, hand.splits, hor.splits, hxor.splits⟩

/-! ### DIV -/

/-- The loop of DIV over divisors that are not 0, of which there is at least one: the reference of the statements. -/
theorem divLoop_of_nonzero {d : Word} {ds : List Word} (h : ∀ v ∈ d :: ds, v ≠ 0) (q r : Word) :
    divLoop q r (d :: ds) = some (quotientOf q (d :: ds), remainderOf q (d :: ds)) := by
  induction ds generalizing d q r with
  | nil =>
    rw [divLoop_cons, if_neg (h d List.mem_cons_self), divWord_eq, modWord_eq]
    rfl
  | cons d' ds ih =>
    obtain ⟨hd, hrest⟩ := List.forall_mem_cons.1 h
    rw [divLoop_cons, if_neg hd, ih hrest, divWord_eq]
    rfl

theorem guardPasses_div {q r : RegIdx} (hq : Writable q) (hr : Writable r) (s1 s2 s3 s4 : RegIdx) :
    GuardPasses (.div q r s1 s2 s3 s4) :=
  List.forall_mem_cons.2 ⟨hq, List.forall_mem_singleton.2 hr⟩

theorem divChain_chainValues (s : State) (s1 s2 s3 s4 : RegIdx) :
    divChain (s.chainValues s1 s2 s3 s4) = divLoop (s.readReg s1) 0 ((s2 :: chained s3 s4).map s.readReg) := by
  rw [State.chainValues_eq, divChain]

theorem executionOf_div_zero {s : State} {s2 s3 s4 : RegIdx} (h : ∃ k ∈ s2 :: chained s3 s4, s.readReg k = 0)
    (q r s1 : RegIdx) : executionOf (.div q r s1 s2 s3 s4) s = .raise .arithmeticFault false := by
  have hnone : divChain (s.chainValues s1 s2 s3 s4) = none :=
    (divChain_chainValues s s1 s2 s3 s4).trans ((divLoop_eq_none _ _ _).2 (List.mem_map.2 h))
  rw [executionOf, divideChain, hnone]

theorem executionOf_div_nonzero {s : State} {s2 s3 s4 : RegIdx} (h : ∀ k ∈ s2 :: chained s3 s4, s.readReg k ≠ 0)
    (q r s1 : RegIdx) :
    executionOf (.div q r s1 s2 s3 s4) s =
      .stage { regs := [(q, quotientOf (s.readReg s1) ((s2 :: chained s3 s4).map s.readReg)),
                        (r, remainderOf (s.readReg s1) ((s2 :: chained s3 s4).map s.readReg))] } := by
  have hdivisors : ∀ v ∈ (s2 :: chained s3 s4).map s.readReg, v ≠ 0 := List.forall_mem_map.2 h
  rw [executionOf, divideChain, divChain_chainValues, List.map_cons, divLoop_of_nonzero hdivisors]

/-- Settles O51: past the guard, DIV raises for a zero divisor and otherwise stages quotient and remainder, in this
order. -/
theorem divisionGoesStepwise : Obligations.DivisionGoesStepwise := by
  have hrow : Family5Row .div 0 := fun _ => rfl
  refine ⟨hrow.encoding, fun q r s1 s2 s3 s4 s hd => ?guard, fun q r s1 s2 s3 s4 s hq hr hzero => ?zero,
    fun q r s1 s2 s3 s4 s hq hr hdivisors => ?divides⟩
  case guard =>
    rcases hd with hq | hr
    · exact hrow.guard s List.mem_cons_self hq
    · exact hrow.guard s (List.mem_cons_of_mem q List.mem_cons_self) hr
  case zero =>
    exact hrow.faults (faults_of_raise (guardPasses_div hq hr s1 s2 s3 s4) (executionOf_div_zero hzero q r s1))
  case divides =>
    obtain ⟨t, hexec, hregs, hout, hin, hkeeps, hmem, hstack, hcommits⟩ :=
      exec_of_channel_effects (guardPasses_div hq hr s1 s2 s3 s4) (executionOf_div_nonzero hdivisors q r s1)
    obtain ⟨hq0, hq1⟩ := hq
    obtain ⟨hr0, hr1⟩ := hr
    refine ⟨t, hexec, fun hne => ?quotient, ?remainder, hkeeps, hmem, hstack, ⟨hin, hout⟩, hcommits⟩
    case quotient =>
      rw [hregs q hq1, State.commitRegs_cons, State.commitRegs_cons, State.commitRegs_nil,
        State.readReg_writeReg_of_ne _ hne, State.readReg_writeReg_self _ hq0 hq1]
    case remainder =>
      rw [hregs r hr1, State.commitRegs_cons, State.commitRegs_cons, State.commitRegs_nil,
        State.readReg_writeReg_self _ hr0 hr1]

/-! ### SHUF -/

/-- COMMIT applies its register writes one after the other. -/
theorem State.commitRegs_concat (s : State) (ws : List (RegIdx × Word)) (w : RegIdx × Word) :
    s.commitRegs (ws ++ [w]) = (s.commitRegs ws).writeReg w.1 w.2 :=
  List.foldl_concat ..

theorem State.shufWrites_concat (s : State) (slots : List (RegIdx × RegIdx)) (p : RegIdx × RegIdx) :
    s.shufWrites (slots ++ [p]) = s.shufWrites slots ++ [(p.2, s.readStaged (s.shufWrites slots) p.1)] :=
  List.foldl_concat ..

theorem shufReference_concat (x : RegIdx → Word) (slots : List (RegIdx × RegIdx)) (p : RegIdx × RegIdx) :
    shufReference x (slots ++ [p]) = if p.1 = 0 then shufReference x slots
      else Function.update (shufReference x slots) p.2 (shufReference x slots p.1) :=
  List.foldl_concat ..

theorem activeSlots_concat (slots : List (RegIdx × RegIdx)) (p : RegIdx × RegIdx) :
    activeSlots (slots ++ [p]) = if p.1 = 0 then activeSlots slots else activeSlots slots ++ [p] := by
  rw [activeSlots, List.filter_append]
  by_cases hp : p.1 = 0
  · rw [if_pos hp, List.filter_cons_of_neg (by simpa using hp), List.filter_nil, List.append_nil, activeSlots]
  · rw [if_neg hp, List.filter_cons_of_pos (by simpa using hp), List.filter_nil, activeSlots]

/-- A read that sees the staged writes is a read of the state that COMMIT would make of them. -/
theorem State.readStaged_eq (s : State) {ws : List (RegIdx × Word)} (h : ∀ w ∈ ws, Writable w.1) (r : RegIdx) :
    s.readStaged ws r = (s.commitRegs ws).readReg r := by
  induction ws using List.reverseRecOn with
  | nil => rfl
  | append_singleton ws w ih =>
    obtain ⟨hws, hw⟩ := List.forall_mem_append.1 h
    have hlast : s.readStaged (ws ++ [w]) r = if r = w.1 then w.2 else s.readStaged ws r := by
      by_cases hr : r = w.1
      · simp [State.readStaged, hr]
      · simp [State.readStaged, hr, Ne.symm hr]
    rw [hlast, ih hws, State.commitRegs_concat, State.readReg_writeReg]
    simp only [List.forall_mem_singleton.1 hw, and_true, ne_eq, not_false_eq_true]

/-- The writes SHUF stages, once committed, leave the registers as the slots acting in sequence do (R229). -/
theorem State.readReg_commitRegs_shufWrites (s : State) {slots : List (RegIdx × RegIdx)}
    (h : ∀ p ∈ activeSlots slots, Writable p.2) :
    (s.commitRegs (s.shufWrites (activeSlots slots))).readReg = shufReference s.readReg slots := by
  induction slots using List.reverseRecOn with
  | nil => rfl
  | append_singleton slots p ih =>
    rw [activeSlots_concat] at h ⊢
    rw [shufReference_concat]
    by_cases hp : p.1 = 0
    · rw [if_pos hp] at h ⊢
      rw [if_pos hp, ih h]
    · rw [if_neg hp] at h ⊢
      obtain ⟨hslots, hlast⟩ := List.forall_mem_append.1 h
      obtain ⟨hp0, hp1⟩ := List.forall_mem_singleton.1 hlast
      have hnames : ∀ d ∈ (s.shufWrites (activeSlots slots)).map Prod.fst, Writable d := by
        rw [shufWrites_fst]
        exact List.forall_mem_map.2 hslots
      have hwrites : ∀ w ∈ s.shufWrites (activeSlots slots), Writable w.1 := List.forall_mem_map.1 hnames
      rw [if_neg hp, State.shufWrites_concat, State.commitRegs_concat, s.readStaged_eq hwrites, ih hslots]
      funext r
      rw [State.readReg_writeReg, ih hslots, Function.update_apply]
      simp only [hp0, hp1, and_true, ne_eq, not_false_eq_true]

theorem mem_activeSlots (slots : List (RegIdx × RegIdx)) (p : RegIdx × RegIdx) :
    p ∈ activeSlots slots ↔ p ∈ slots ∧ p.1 ≠ 0 := by
  rw [activeSlots, List.mem_filter, bne_iff_ne]

/-- DEST of SHUF: the destinations of its active slots (R125, D17). -/
theorem mem_destinations_shuf (a b c x y z d : RegIdx) :
    d ∈ destinations (.shuf a b c x y z) ↔ (a ≠ 0 ∧ d = x) ∨ (b ≠ 0 ∧ d = y) ∨ (c ≠ 0 ∧ d = z) := by
  simp only [destinations, shufSlots, List.mem_map, mem_activeSlots, List.mem_cons, List.not_mem_nil, or_false]
  constructor
  · rintro ⟨p, ⟨rfl | rfl | rfl, hp⟩, rfl⟩
    exacts [.inl ⟨hp, rfl⟩, .inr (.inl ⟨hp, rfl⟩), .inr (.inr ⟨hp, rfl⟩)]
  · rintro (⟨ha, rfl⟩ | ⟨hb, rfl⟩ | ⟨hc, rfl⟩)
    exacts [⟨(a, d), ⟨.inl rfl, ha⟩, rfl⟩, ⟨(b, d), ⟨.inr (.inl rfl), hb⟩, rfl⟩,
      ⟨(c, d), ⟨.inr (.inr rfl), hc⟩, rfl⟩]

/-- Settles O55: the guard sees the active slots alone, and the staged writes act as the slots do in sequence. -/
theorem shuffleActsInSequence : Obligations.ShuffleActsInSequence := by
  have hrow : Family5Row .shuf 7 := fun _ => rfl
  refine ⟨hrow.encoding, fun a b c x y z s hd => ?guard, fun a b c x y z s hx hy hz => ?shuffles⟩
  case guard =>
    rcases hd with ⟨ha, hx⟩ | ⟨hb, hy⟩ | ⟨hc, hz⟩
    · exact hrow.guard s ((mem_destinations_shuf ..).2 (.inl ⟨ha, rfl⟩)) hx
    · exact hrow.guard s ((mem_destinations_shuf ..).2 (.inr (.inl ⟨hb, rfl⟩))) hy
    · exact hrow.guard s ((mem_destinations_shuf ..).2 (.inr (.inr ⟨hc, rfl⟩))) hz
  case shuffles =>
    have hguard : GuardPasses (.shuf a b c x y z) := by
      intro d hd
      rcases (mem_destinations_shuf ..).1 hd with ⟨ha, rfl⟩ | ⟨hb, rfl⟩ | ⟨hc, rfl⟩
      exacts [hx ha, hy hb, hz hc]
    obtain ⟨t, hexec, hregs, hout, hin, -, hmem, hstack, hcommits⟩ :=
      exec_of_channel_effects (s := s) hguard rfl
    refine ⟨t, hexec, fun r hr1 => (hregs r hr1).trans ?_, hmem, hstack, ⟨hin, hout⟩, hcommits⟩
    exact congrFun (s.readReg_commitRegs_shufWrites (List.forall_mem_map.1 hguard)) r

end Sys2Proof.Machine
end

section
/-!
PROOFS. The fault kinds (60_exceptions.md), the creation of a run (70_reset_and_hazards.md), and words of the test
vectors (95_test_vectors.md).
-/

namespace Sys2Proof.Machine

/-! ### The fault kinds (60_exceptions.md) -/

/-- R241 lists the guard's fault for every instruction with a destination. -/
theorem illegalRegisterWrite_mem_possibleFaults {i : Instr} (hdest : destinations i ≠ []) :
    .illegalRegisterWrite ∈ possibleFaults i := by
  cases i
  case nop | ret | print | jmp | call | st | jgtz => exact absurd rfl hdest
  all_goals exact List.mem_cons_self

/-- R241 lists what EXECUTE raises: seven instructions have such a fault, each in one branch of its execution. JGTZ
branches too and raises nothing; the instructions with no case of their own have no branch. -/
theorem raised_mem_possibleFaults {i : Instr} {s : State} {k : FaultKind} {c : Bool}
    (h : executionOf i s = .raise k c) : k ∈ possibleFaults i := by
  cases i
  case ret | read | call | st | ld | divi | div =>
    simp only [executionOf, popJump, readItem, pushJump, storeCell, loadCell, stageReg, divideImm, divideChain] at h
    split at h <;> cases h
    simp [possibleFaults]
  case jgtz =>
    simp only [executionOf, jumpIfPositive, stageJump] at h
    split at h <;> cases h
  all_goals cases h

/-- Settles O32: of the four things an instruction can do, the guard's fault and EXECUTE's end Faulted, and R241 lists
both. -/
theorem instructionsRaiseOnlyTheirFaults : Obligations.InstructionsRaiseOnlyTheirFaults := by
  intro i s t snap hr hexec hfaulted hsnap
  cases ran_of_exec hexec with
  | guarded hguard =>
    obtain rfl := Option.some.inj hsnap
    refine illegalRegisterWrite_mem_possibleFaults fun hnil => ?_
    simp [hnil] at hguard
  | raised k c _ he =>
    obtain rfl := Option.some.inj hsnap
    exact raised_mem_possibleFaults he
  | waited _ _ => simp [hr] at hfaulted
  | committed e _ _ => exact absurd hfaulted (State.advance_ne_faulted (by simp [hr]) _)

/-- Settles O12: a step is idle, traps, or runs an instruction, and every instruction answers a next state. -/
theorem everyStepAnswersNext : Obligations.EveryStepAnswersNext := by
  intro s
  rcases step_cases s with ⟨-, hidle⟩ | ⟨-, -, hfetch⟩ | ⟨_, _, -, -, -, htrap⟩ | ⟨_, i, -, -, -, hrun⟩
  · exact ⟨_, hidle⟩
  · exact ⟨_, hfetch⟩
  · exact ⟨_, htrap⟩
  · obtain ⟨t, hexec, -⟩ := exec_ran i s
    exact ⟨t, hrun.trans hexec⟩

/-- Settles O31: `faultCode` is the table of R240. -/
theorem faultCodes : Obligations.FaultCodes :=
  ⟨rfl, rfl, rfl, rfl, rfl, rfl, rfl, rfl⟩

/-! ### The creation of a run (70_reset_and_hazards.md) -/

/-- The hard-wired x[0], the program counter and the register file alike. -/
theorem State.readReg_create (cfg : Config) (prog : List InstrWord) (input : List InputItem) (r : RegIdx) :
    (State.create cfg prog input).readReg r = 0 := by
  by_cases h0 : r = 0
  · rw [h0, State.readReg_zero]
  by_cases h1 : r = 1
  · rw [h1, State.readReg_one]
    rfl
  · rw [State.readReg_gpr _ h0 h1]
    exact Vector.getElem_replicate _

/-- Settles O23: the registers by `State.readReg_create`, the cells because none is listed. -/
theorem creationResetsTheState : Obligations.CreationResetsTheState :=
  fun cfg prog input => ⟨State.readReg_create cfg prog input, Memory.read_nil, rfl, rfl, rfl, rfl⟩

theorem State.create_fetches (cfg : Config) (w : InstrWord) (ws : List InstrWord) (input : List InputItem) :
    Fetches (State.create cfg (w :: ws) input) w := ⟨rfl, rfl⟩

/-- Settles O24: the halt test of R132 has already met an empty program; any other is fetched from index 0. -/
theorem runsStartAtIndexZero : Obligations.RunsStartAtIndexZero := by
  refine fun cfg input => ⟨⟨rfl, step_of_not_running nofun⟩, fun w ws => ?_⟩
  have hfetch := State.create_fetches cfg w ws input
  exact ⟨hfetch, fun i hd => stepRunsTheDecodedInstruction _ w i hfetch hd⟩

end Sys2Proof.Machine

namespace Sys2Proof

/-! ### Words of the test vectors (95_test_vectors.md) -/

/-- The word an instruction encodes to decodes to it. -/
theorem decode_of_encode_eq {w : InstrWord} {i : Instr} (h : encode i = w) : decode w = .instr i :=
  h ▸ instructionsRoundTrip i

/-- Settles O7: each of the six words is the encoding of its instruction, with ignored bits 0. -/
theorem sampleWordsDecode : Obligations.SampleWordsDecode :=
  ⟨decode_of_encode_eq (by decide), decode_of_encode_eq (by decide), decode_of_encode_eq (by decide),
    decode_of_encode_eq (by decide), decode_of_encode_eq (by decide), decode_of_encode_eq (by decide)⟩

end Sys2Proof
end
